-- ==== Sys2Proof/Word.lean ====
section
/-! DEFINITION. The widths the spec names: a register value, an address, a byte of the stored image, an instruction
word and a register field. -/

namespace Sys2Proof

/-- The 64-bit pattern of a register value or an immediate (00_scope.md R7, `XLEN = 64`). Its value as a signed integer
is `BitVec.toInt`, the `s(v)` of R6. -/
abbrev Word := BitVec 64

/-- The program counter and the program length: unsigned, `PCW = 64` bits (10_state.md R25). -/
abbrev Addr := BitVec 64

/-- One byte of a stored program image (20_memory.md R43). -/
abbrev Byte := BitVec 8

/-- One binary instruction word, `IW = 136` bits (30_encoding.md R72). -/
abbrev InstrWord := BitVec 136

/-- A register field as the word and the ports carry it: 5 bits (30_encoding.md R75, 43_sequencer.md R159). Only the
indices 0 to 25 name a register (10_state.md R21); see `regOk`. -/
abbrev Reg := BitVec 5

end Sys2Proof
end

