-- ==== Sys2Proof/Config.lean ====
section
/-! DEFINITION. The parameters of the core and the value each takes (00_scope.md R5). `Prog`, `L` and `Driver`, which R5
leaves to the model's arguments, are fields of State. Nothing else is left to the implementation, so no constant here is
opaque. -/

namespace Sys2Proof.Config

/-- `NREG`: the number of general registers. -/
abbrev nreg : Nat := 26

/-- `SENTINEL`, the halt sentinel, `2^PCW - 1`. -/
abbrev sentinel : Nat := 2 ^ 64 - 1

/-- `MAXLEN`, the largest program length the core supports. -/
abbrev maxLen : Nat := 2 ^ 63

/-- The bytes of one stored instruction word, `IW / 8` (20_memory.md R43). -/
abbrev wordBytes : Nat := 17

/-- `MIN`, the least signed 64-bit integer (00_scope.md R7). -/
abbrev minInt : Int := -2 ^ 63

/-- `MAX`, the greatest signed 64-bit integer (00_scope.md R7). -/
abbrev maxInt : Int := 2 ^ 63 - 1

end Sys2Proof.Config
end

