-- ==== Sys2Proof/Syntax.lean ====
section
/-! DEFINITION. The abstract instruction set, the spec's normative level (30_encoding.md R60): nine kinds over two operand
forms. The 21 rows of spec/opcode_table.json are these nine kinds with the operand modes spelled out (R82), and each
row is one constructor here at one choice of `Operand` constructors (log 8). -/

namespace Sys2Proof

/-- An operand (R60): a register or an immediate. -/
inductive Operand where
  | reg (r : Reg)
  | imm (n : Word)
  deriving DecidableEq, Repr

/-- An instruction (R60). The destination of `set add sub mul mod rcv` is a register and never an immediate (R61). -/
inductive Instr where
  | snd (x : Operand)
  | set (rd : Reg) (x : Operand)
  | add (rd : Reg) (x : Operand)
  | sub (rd : Reg) (x : Operand)
  | mul (rd : Reg) (x : Operand)
  | mod (rd : Reg) (x : Operand)
  | jgz (x y : Operand)
  | jnz (x y : Operand)
  | rcv (rd : Reg)
  deriving DecidableEq, Repr

/-- The nine instruction kinds, in the order of 30_encoding.md R66. -/
inductive Kind where
  | snd | set | add | sub | mul | mod | jgz | jnz | rcv
  deriving DecidableEq, Repr

/-- The kind of an instruction. -/
def Instr.kind : Instr → Kind
  | .snd _ => .snd
  | .set _ _ => .set
  | .add _ _ => .add
  | .sub _ _ => .sub
  | .mul _ _ => .mul
  | .mod _ _ => .mod
  | .jgz _ _ => .jgz
  | .jnz _ _ => .jnz
  | .rcv _ => .rcv

end Sys2Proof
end

