-- ==== Sys2Proof/WellFormed.lean ====
section
/-! DEFINITION. Well-formed instructions: every register they name is one of the 26 (30_encoding.md R60, `0 <= i <= 25`).
The data type already keeps an immediate out of a destination (R61) and an immediate inside 64 bits. -/

namespace Sys2Proof

/-- The register field names a register, index 0 to 25 (10_state.md R21). -/
def regOk (r : Reg) : Bool := decide (r.toNat < Config.nreg)

/-- A register operand names one of the 26 registers; every immediate is legal (R75). -/
def Operand.wf : Operand → Bool
  | .reg r => regOk r
  | .imm _ => true

/-- Every register of the instruction is one of the 26. -/
def Instr.wf : Instr → Bool
  | .snd x => x.wf
  | .set rd x => regOk rd && x.wf
  | .add rd x => regOk rd && x.wf
  | .sub rd x => regOk rd && x.wf
  | .mul rd x => regOk rd && x.wf
  | .mod rd x => regOk rd && x.wf
  | .jgz x y => x.wf && y.wf
  | .jnz x y => x.wf && y.wf
  | .rcv rd => regOk rd

end Sys2Proof
end

