-- ==== Sys2Proof/Decode.lean ====
section
/-! DEFINITION. The binary instruction word: its fields, the decoder (total on all `2^136` words and on any bytes, rejecting
by name), the encoder, the stored byte order and the opcode table (30_encoding.md section 3; 20_memory.md R43). -/

namespace Sys2Proof

/-! ### The fields of a word (R72) -/

/-- The six fields of an instruction word. -/
structure Fields where
  op  : BitVec 4
  am  : Bool
  bm  : Bool
  rsv : BitVec 2
  a   : Word
  b   : Word
  deriving DecidableEq, Repr

/-- The fields at their bit positions: `op[135:132] am[131] bm[130] rsv[129:128] a[127:64] b[63:0]` (R72). -/
def splitWord (w : InstrWord) : Fields where
  op  := w.extractLsb' 132 4
  am  := w.getLsbD 131
  bm  := w.getLsbD 130
  rsv := w.extractLsb' 128 2
  a   := w.extractLsb' 64 64
  b   := w.extractLsb' 0 64

/-- The word with the given fields (R72). -/
def joinWord (f : Fields) : InstrWord :=
  f.op ++ BitVec.ofBool f.am ++ BitVec.ofBool f.bm ++ f.rsv ++ f.a ++ f.b

/-! ### Opcodes and formats (R73, R74) -/

/-- The instruction formats (R73). -/
inductive Format where
  | S | RX | R | XY
  deriving DecidableEq, Repr

/-- The opcode map (R74): 1 to 9 in the text decoder's priority order; 0 and 10 to 15 are no instruction. -/
def kindOfOp (op : BitVec 4) : Option Kind :=
  match op.toNat with
  | 1 => some .snd
  | 2 => some .set
  | 3 => some .add
  | 4 => some .sub
  | 5 => some .mul
  | 6 => some .mod
  | 7 => some .jgz
  | 8 => some .jnz
  | 9 => some .rcv
  | _ => none

/-- The opcode of a kind (R74). -/
def Kind.op : Kind → BitVec 4
  | .snd => 1
  | .set => 2
  | .add => 3
  | .sub => 4
  | .mul => 5
  | .mod => 6
  | .jgz => 7
  | .jnz => 8
  | .rcv => 9

/-- The format of a kind (R73). -/
def Kind.format : Kind → Format
  | .snd => .S
  | .set => .RX
  | .add => .RX
  | .sub => .RX
  | .mul => .RX
  | .mod => .RX
  | .jgz => .XY
  | .jnz => .XY
  | .rcv => .R

/-- Operand A of the format is a destination register, so its mode must be register (R73). -/
def Format.destA : Format → Bool
  | .RX | .R => true
  | .S | .XY => false

/-- The format uses operand B (R73, `usedB` of R77). -/
def Format.usedB : Format → Bool
  | .RX | .XY => true
  | .S | .R => false

/-! ### The decoder (R77, R78) -/

/-- What the decoder answers: an instruction or one of two failures by name (R77). -/
inductive DecodeResult where
  /-- A reserved or illegal encoding; the step that fetches it raises `IllegalInstruction` (R78, R79). -/
  | illegal
  /-- Not illegal, and a register-mode operand has index 26 to 31 (R78, R79). -/
  | badRegister
  | instr (i : Instr)
  deriving DecidableEq, Repr

/-- The register index of a payload, its bits `[4:0]` (R75). -/
def payloadReg (p : Word) : Reg := p.extractLsb' 0 5

/-- The bits `[63:5]` of a payload, which register mode requires to be zero (R75). -/
def payloadHigh (p : Word) : BitVec 59 := p.extractLsb' 5 59

/-- The operand a mode bit and a payload stand for (R75, R76): the immediate is the whole payload. -/
def operandOf (md : Bool) (p : Word) : Operand :=
  if md then .imm p else .reg (payloadReg p)

/-- The instruction of a kind with operands A and B and destination index `rA`, the last lines of R77. -/
def buildInstr (k : Kind) (A B : Operand) (rA : Reg) : Instr :=
  match k with
  | .snd => .snd A
  | .set => .set rA B
  | .add => .add rA B
  | .sub => .sub rA B
  | .mul => .mul rA B
  | .mod => .mod rA B
  | .jgz => .jgz A B
  | .jnz => .jnz A B
  | .rcv => .rcv rA

/-- One of R77's tests for `Illegal` that follow the opcode's holds. -/
def illegalForm (fmt : Format) (f : Fields) : Bool :=
  (fmt.destA && f.am)
    || (!fmt.usedB && (f.bm || f.b != 0))
    || (!f.am && payloadHigh f.a != 0)
    || (fmt.usedB && !f.bm && payloadHigh f.b != 0)

/-- One of R77's tests for `BadRegister` holds. -/
def badRegisterForm (fmt : Format) (f : Fields) : Bool :=
  (!f.am && !regOk (payloadReg f.a)) || (fmt.usedB && !f.bm && !regOk (payloadReg f.b))

/-- The decoder on fields, in the order of R77: every `Illegal` test before the `BadRegister` tests. -/
def decodeFields (f : Fields) : DecodeResult :=
  if f.rsv != 0 then .illegal
  else
    match kindOfOp f.op with
    | none => .illegal
    | some k =>
      if illegalForm k.format f then .illegal
      else if badRegisterForm k.format f then .badRegister
      else .instr (buildInstr k (operandOf f.am f.a) (operandOf f.bm f.b) (payloadReg f.a))

/-- `decode_word(w)` of R77, total on all words. -/
def decodeWord (w : InstrWord) : DecodeResult := decodeFields (splitWord w)

/-! ### The encoder (R80) -/

/-- The mode bit and payload of an operand (R80). -/
def operandPayload : Operand → Bool × Word
  | .reg r => (false, r.setWidth 64)
  | .imm n => (true, n)

/-- The fields of format `RX`: a destination register and an operand. -/
def fieldsRX (k : Kind) (rd : Reg) (x : Operand) : Fields where
  op := k.op
  am := false
  bm := (operandPayload x).1
  rsv := 0
  a := rd.setWidth 64
  b := (operandPayload x).2

/-- The fields of format `XY`: two operands. -/
def fieldsXY (k : Kind) (x y : Operand) : Fields where
  op := k.op
  am := (operandPayload x).1
  bm := (operandPayload y).1
  rsv := 0
  a := (operandPayload x).2
  b := (operandPayload y).2

/-- The fields of format `S`: one operand; the unused mode and payload are zero. -/
def fieldsS (k : Kind) (x : Operand) : Fields where
  op := k.op
  am := (operandPayload x).1
  bm := false
  rsv := 0
  a := (operandPayload x).2
  b := 0

/-- The fields of format `R`: one destination register; the unused mode and payload are zero. -/
def fieldsR (k : Kind) (rd : Reg) : Fields where
  op := k.op
  am := false
  bm := false
  rsv := 0
  a := rd.setWidth 64
  b := 0

/-- The fields of an instruction's one legal word (R80). -/
def encodeFields : Instr → Fields
  | .snd x => fieldsS .snd x
  | .set rd x => fieldsRX .set rd x
  | .add rd x => fieldsRX .add rd x
  | .sub rd x => fieldsRX .sub rd x
  | .mul rd x => fieldsRX .mul rd x
  | .mod rd x => fieldsRX .mod rd x
  | .jgz x y => fieldsXY .jgz x y
  | .jnz x y => fieldsXY .jnz x y
  | .rcv rd => fieldsR .rcv rd

/-- `encode_word(I)` of R80. -/
def encodeWord (i : Instr) : InstrWord := joinWord (encodeFields i)

/-! ### The stored image (20_memory.md R43) -/

/-- The 17 bytes of a word in stored order: byte `k` holds bits `[135-8k : 128-8k]` (R43). -/
def bytesOfWord (w : InstrWord) : List Byte :=
  (List.range Config.wordBytes).map fun k => w.extractLsb' (128 - 8 * k) 8

/-- The unsigned number a list of bytes spells, most significant byte first. -/
def natOfBytes (bs : List Byte) : Nat := bs.foldl (fun acc b => acc * 256 + b.toNat) 0

/-- The word whose stored bytes are the given ones, most significant byte first (R43). -/
def wordOfBytes (bs : List Byte) : InstrWord := BitVec.ofNat 136 (natOfBytes bs)

/-- The bytes an instruction is stored as. -/
def encode (i : Instr) : List Byte := bytesOfWord (encodeWord i)

/-- What decoding a list of bytes answers. -/
inductive BytesResult where
  /-- Fewer bytes than one instruction word has. -/
  | truncated
  /-- The first word's decoding and the bytes after it. -/
  | decoded (r : DecodeResult) (rest : List Byte)
  deriving DecidableEq, Repr

/-- Decode the first instruction of a list of bytes; total on any bytes. Every instruction is one word (R83). -/
def decodeBytes (bs : List Byte) : BytesResult :=
  if bs.length < Config.wordBytes then .truncated
  else .decoded (decodeWord (wordOfBytes (bs.take Config.wordBytes))) (bs.drop Config.wordBytes)

/-! ### The opcode table (R82, spec/opcode_table.json) -/

/-- One row of the opcode table: a word belongs to the row when `w AND mask = pattern`; `regA` and `regB` say that the
row's constraints bound the index `w[68:64]` and `w[4:0]` by 25. -/
structure TableRow where
  kind    : Kind
  pattern : InstrWord
  mask    : InstrWord
  regA    : Bool
  regB    : Bool
  deriving DecidableEq, Repr

/-- The rows of `snd` and `rcv`. -/
def tableHandoff : List TableRow := [
  ⟨.snd, 0x1000000000000000000000000000000000, 0xFFFFFFFFFFFFFFFFE0FFFFFFFFFFFFFFFF, true, false⟩,
  ⟨.snd, 0x1800000000000000000000000000000000, 0xFF0000000000000000FFFFFFFFFFFFFFFF, false, false⟩,
  ⟨.rcv, 0x9000000000000000000000000000000000, 0xFFFFFFFFFFFFFFFFE0FFFFFFFFFFFFFFFF, true, false⟩]

/-- The rows of the five register and ALU instructions. -/
def tableAlu : List TableRow := [
  ⟨.set, 0x2000000000000000000000000000000000, 0xFFFFFFFFFFFFFFFFE0FFFFFFFFFFFFFFE0, true, true⟩,
  ⟨.set, 0x2400000000000000000000000000000000, 0xFFFFFFFFFFFFFFFFE00000000000000000, true, false⟩,
  ⟨.add, 0x3000000000000000000000000000000000, 0xFFFFFFFFFFFFFFFFE0FFFFFFFFFFFFFFE0, true, true⟩,
  ⟨.add, 0x3400000000000000000000000000000000, 0xFFFFFFFFFFFFFFFFE00000000000000000, true, false⟩,
  ⟨.sub, 0x4000000000000000000000000000000000, 0xFFFFFFFFFFFFFFFFE0FFFFFFFFFFFFFFE0, true, true⟩,
  ⟨.sub, 0x4400000000000000000000000000000000, 0xFFFFFFFFFFFFFFFFE00000000000000000, true, false⟩,
  ⟨.mul, 0x5000000000000000000000000000000000, 0xFFFFFFFFFFFFFFFFE0FFFFFFFFFFFFFFE0, true, true⟩,
  ⟨.mul, 0x5400000000000000000000000000000000, 0xFFFFFFFFFFFFFFFFE00000000000000000, true, false⟩,
  ⟨.mod, 0x6000000000000000000000000000000000, 0xFFFFFFFFFFFFFFFFE0FFFFFFFFFFFFFFE0, true, true⟩,
  ⟨.mod, 0x6400000000000000000000000000000000, 0xFFFFFFFFFFFFFFFFE00000000000000000, true, false⟩]

/-- The rows of the two jumps. -/
def tableJump : List TableRow := [
  ⟨.jgz, 0x7000000000000000000000000000000000, 0xFFFFFFFFFFFFFFFFE0FFFFFFFFFFFFFFE0, true, true⟩,
  ⟨.jgz, 0x7400000000000000000000000000000000, 0xFFFFFFFFFFFFFFFFE00000000000000000, true, false⟩,
  ⟨.jgz, 0x7800000000000000000000000000000000, 0xFF0000000000000000FFFFFFFFFFFFFFE0, false, true⟩,
  ⟨.jgz, 0x7C00000000000000000000000000000000, 0xFF00000000000000000000000000000000, false, false⟩,
  ⟨.jnz, 0x8000000000000000000000000000000000, 0xFFFFFFFFFFFFFFFFE0FFFFFFFFFFFFFFE0, true, true⟩,
  ⟨.jnz, 0x8400000000000000000000000000000000, 0xFFFFFFFFFFFFFFFFE00000000000000000, true, false⟩,
  ⟨.jnz, 0x8800000000000000000000000000000000, 0xFF0000000000000000FFFFFFFFFFFFFFE0, false, true⟩,
  ⟨.jnz, 0x8C00000000000000000000000000000000, 0xFF00000000000000000000000000000000, false, false⟩]

/-- The opcode table, 21 rows (R82). -/
def opcodeTable : List TableRow := tableHandoff ++ tableAlu ++ tableJump

/-- The word belongs to the row: `w AND mask = match` (R82). -/
def TableRow.covers (row : TableRow) (w : InstrWord) : Bool := w &&& row.mask == row.pattern

/-- The word meets the row's constraints: the register indices are at most 25 (R82). -/
def TableRow.constraintsHold (row : TableRow) (w : InstrWord) : Bool :=
  (!row.regA || regOk (w.extractLsb' 64 5)) && (!row.regB || regOk (w.extractLsb' 0 5))

/-! ### The host's reading of a table word -/

/-- The instruction word of a number with `nbits` bits, numbered as the opcode table numbers them (bit 0 is the least
significant bit of the one 136-bit word); every bit above `nbits` is 0. -/
def tableWord (nbits w : Nat) : InstrWord := BitVec.ofNat 136 (w % 2 ^ nbits)

/-- The instruction the decoder reads from the stored bytes of that word; none where it refuses. -/
def decodeTableWord (nbits w : Nat) : Option Instr :=
  match decodeBytes (bytesOfWord (tableWord nbits w)) with
  | .decoded (.instr i) _ => some i
  | .decoded .illegal _ => none
  | .decoded .badRegister _ => none
  | .truncated => none

end Sys2Proof
end

