-- ==== Sys2Proof/Machine/State.lean ====
section
/-! DEFINITION. The state of one core: the spec's tuple `(x[0..25], pc, run, fault)` (10_state.md R31, R34), and beside it the
arguments of the spec's step relation, the Program, its length, the driver and the driver trace (00_scope.md R5, 10_state.md
R33, 42_driver_handoff.md R146), which the host's one-argument step needs as data (log 1). -/

namespace Sys2Proof.Machine

/-- The run state (10_state.md R28). -/
inductive RunState where
  | running | halted
  deriving DecidableEq, Repr

/-- The causes the fault latch records (10_state.md R29, 60_exceptions.md R175). -/
inductive Cause where
  | illegalInstruction | registerIndexOutOfRange | divisionByZero
  deriving DecidableEq, Repr

/-- A fault record: the cause and the pc of the faulting step (10_state.md R29). -/
structure FaultRecord where
  cause : Cause
  fpc   : Addr
  deriving DecidableEq, Repr

/-- An event of the driver trace (42_driver_handoff.md R146). -/
inductive Event where
  /-- `Send(v)`: a `snd` presented `v`. -/
  | send (v : Word)
  /-- `Recv(i, v)`: a `rcv` wrote `v` to register `i`. -/
  | recv (i : Reg) (v : Word)
  deriving DecidableEq, Repr

/-- The driver's input ports at one rising clock edge (43_sequencer.md R159, 42_driver_handoff.md R144). The two inputs that
are constant over a run, `prog_len` and the Program behind `imem_word`, are fields of State. -/
structure PortIn where
  rst      : Bool
  go       : Bool
  rcvValid : Bool
  rcvData  : Word
  regSel   : Reg
  regWe    : Bool
  regWdata : Word
  deriving DecidableEq, Repr

/-- A stored program image: address and byte pairs, addresses strictly rising, no byte equal to what an unlisted address
reads as (log 2). -/
abbrev Memory := List Host.Cell

/-- What an unlisted byte of the image reads as: zero, the byte of a cleared memory (92_eei_decisions.md D2; log 2,
DESIGN CHOICE). -/
abbrev Memory.unlisted : Byte := 0

/-- The canonical form of an image. -/
abbrev Memory.wf (m : Memory) : Prop :=
  m.Pairwise (fun c d => c.1 < d.1) ∧ ∀ c ∈ m, c.2 ≠ Memory.unlisted

/-- The state of one core and of what the driver holds for it. -/
structure State where
  /-- `x[0]` .. `x[25]` (10_state.md R20). -/
  regs    : Vector Word 26
  /-- The program counter (10_state.md R25). -/
  pc      : Addr
  /-- The run state (10_state.md R28). -/
  run     : RunState
  /-- The fault latch, `None` or a record (10_state.md R29). -/
  fault   : Option FaultRecord
  /-- `L`, the input `prog_len` (43_sequencer.md R159). -/
  progLen : Addr
  /-- `Prog`, the stored image of the Program (20_memory.md R40, R43). -/
  imem    : Memory
  /-- The driver's input ports, one entry per coming clock edge, the next first (logs 3 and 4). -/
  driver  : List PortIn
  /-- The driver trace of the run, oldest event first (42_driver_handoff.md R146). -/
  trace   : List Event
  deriving DecidableEq, Repr

/-- Why a step stops (the host's fault). The spec's three faults are none of these: they set the fault latch and the machine
goes to a next state (60_exceptions.md R174). -/
inductive Fault where
  /-- Raised by the step's fetch when the core is to execute and `pc >= L`: no address at or above `L` holds anything
  (20_memory.md R40). No run reaches such a state (10_state.md R36). Safe (log 11). -/
  | fetchOutsideProgram
  deriving DecidableEq, Repr

/-- Why an instruction is refused. -/
inductive Refusal where
  /-- An instruction that has no meaning yet, named by its mnemonic; raised by a refused arm of `exec`. Safe. -/
  | notModelled (mnemonic : String)
  /-- Raised by an instruction whose next pointer `p + d` does not fit 64 bits. 41_control_transfer.md R121 gives a value for
  `p < 2^63` only, and 93_implementation_defined.md U5 says to refuse and neither wrap nor saturate. Safe (log 10). -/
  | pointerOverflow
  deriving DecidableEq, Repr

/-- The outcome of a step or of an instruction. -/
abbrev Out := Host.Outcome State Fault Refusal

/-- The machine right after reset with no Program loaded: 10_state.md R35 with `L = 0` (log 6). -/
def State.reset : State where
  regs    := Vector.replicate 26 0
  pc      := 0
  run     := .halted
  fault   := none
  progLen := 0
  imem    := []
  driver  := []
  trace   := []

end Sys2Proof.Machine
end

