-- ==== Sys2Proof/Machine/Arith.lean ====
section
/-! DEFINITION. The arithmetic of the core: exact integers first, then the named narrowing (00_scope.md R7, R8), and the
displacement of the pointer (41_control_transfer.md R121). -/

namespace Sys2Proof.Machine

/-- `wrap64`: the narrowing of an integer to a register, as the 64-bit pattern (00_scope.md R7). It is the identity on
`MIN .. MAX`. -/
def wrap64 (n : Int) : Word := BitVec.ofInt 64 n

/-- `tquot`: the quotient rounded toward zero (00_scope.md R8). -/
def tquot (a b : Int) : Int := Int.tdiv a b

/-- `trem(a, b) = a - b * tquot(a, b)` (00_scope.md R8). It is used for `b` other than 0 only. -/
def trem (a b : Int) : Int := a - b * tquot a b

/-- `apply_disp(p, d)` (41_control_transfer.md R121). The sum is exact: whether it fits the pointer is `State.goto`'s. -/
def applyDisp (p : Nat) (d : Int) : Nat :=
  if 0 ≤ d then p + d.toNat
  else if d.natAbs ≤ p then p - d.natAbs
  else Config.sentinel

end Sys2Proof.Machine
end

