-- ==== Sys2Proof/Machine/Ops.lean ====
section
/-! DEFINITION. The named operations over the image, the registers, the pointer, the trace and the fault latch that every
meaning is written with. -/

namespace Sys2Proof.Machine

/-! ### The stored image (20_memory.md R43) -/

/-- The byte at an address of the image. -/
def Memory.read : Memory → Nat → Byte
  | [], _ => Memory.unlisted
  | (k, b) :: m, a => if k = a then b else Memory.read m a

/-- Store a byte, keeping the canonical form: storing what an unlisted address reads as removes the entry. -/
def Memory.write : Memory → Nat → Byte → Memory
  | [], a, v => if v = Memory.unlisted then [] else [(a, v)]
  | (k, b) :: m, a, v =>
    if a < k then (if v = Memory.unlisted then (k, b) :: m else (a, v) :: (k, b) :: m)
    else if a = k then (if v = Memory.unlisted then m else (a, v) :: m)
    else (k, b) :: Memory.write m a v

/-- Store bytes at rising addresses from `a`. -/
def Memory.writeBytes : Memory → Nat → List Byte → Memory
  | m, _, [] => m
  | m, a, b :: bs => Memory.writeBytes (Memory.write m a b) (a + 1) bs

/-- The instruction word at instruction address `a`: bytes `17a .. 17a+16`, most significant first (R43). -/
def Memory.readWord (m : Memory) (a : Nat) : InstrWord :=
  wordOfBytes ((List.range Config.wordBytes).map fun k => m.read (Config.wordBytes * a + k))

/-- Store an instruction word at instruction address `a` (R43). -/
def Memory.writeWord (m : Memory) (a : Nat) (w : InstrWord) : Memory :=
  m.writeBytes (Config.wordBytes * a) (bytesOfWord w)

/-- Store instruction words at rising instruction addresses from `a`. -/
def Memory.writeWords : Memory → Nat → List InstrWord → Memory
  | m, _, [] => m
  | m, a, w :: ws => Memory.writeWords (m.writeWord a w) (a + 1) ws

/-! ### Registers (10_state.md R20 to R24) -/

/-- `x[r]` with a bounds check: nothing for an index above 25, which no register has (10_state.md R21,
60_exceptions.md R173). -/
def State.getReg? (s : State) (r : Reg) : Option Word := s.regs[r.toNat]?

/-- `x[r] <- v`; an index above 25 is not written (43_sequencer.md R159). -/
def State.setReg (s : State) (r : Reg) (v : Word) : State := { s with regs := s.regs.setIfInBounds r.toNat v }

/-- The register read port: `x[reg_sel]`, and 0 for 26 to 31 (43_sequencer.md R159). -/
def State.readPort (s : State) (r : Reg) : Word := (s.getReg? r).getD 0

/-! ### The driver's ports -/

/-- What the ports carry once the driver list is used up: the core is let step, and the driver supplies nothing else
(log 4, DESIGN CHOICE). -/
def PortIn.freeRun : PortIn where
  rst      := false
  go       := true
  rcvValid := false
  rcvData  := 0
  regSel   := 0
  regWe    := false
  regWdata := 0

/-- The input ports at the coming clock edge. -/
def State.portIn (s : State) : PortIn := s.driver.headD PortIn.freeRun

/-- The clock edge is over: its port values are used up. -/
def State.endEdge (s : State) : State := { s with driver := s.driver.tail }

/-- The driver's register write at an edge without a step (43_sequencer.md R159; 90_conflicts.md C11). -/
def State.driverWrite (s : State) : State :=
  if s.portIn.regWe then s.setReg s.portIn.regSel s.portIn.regWdata else s

/-- `emit`: append an event to the driver trace (42_driver_handoff.md R146). -/
def State.emit (s : State) (e : Event) : State := { s with trace := s.trace ++ [e] }

/-! ### Taking a fault, and reset, the only way out of one (60_exceptions.md R174, R178) -/

/-- `raise F(pc)`: the latch records the cause and the pc, and nothing else is written (60_exceptions.md R174). -/
def State.raise (s : State) (c : Cause) : State := { s with fault := some { cause := c, fpc := s.pc } }

/-- Reset (70_reset_and_hazards.md R200, 10_state.md R35): the registers 0, the pc 0, no fault, `Running` exactly when the
Program is not empty. It starts a new run, whose trace is empty (R207; log 5). There is no return from a fault (R178). -/
def State.applyReset (s : State) : State :=
  { s with
    regs  := Vector.replicate 26 0
    pc    := 0
    run   := if s.progLen = 0 then .halted else .running
    fault := none
    trace := [] }

/-! ### The pointer and the run state (43_sequencer.md R150, R151) -/

/-- The end of a step that goes to `n`: `pc <- n`, and `Halted` when `n` is the sentinel or at least `L` (R151). A sum that
does not fit the pointer has no rule and is refused (93_implementation_defined.md U5; log 10). -/
def State.goto (s : State) (n : Nat) : Out :=
  if n < 2 ^ 64 then
    .next { s with
      pc  := BitVec.ofNat 64 n
      run := if n = Config.sentinel ∨ s.progLen.toNat ≤ n then .halted else .running }
  else .refused .pointerOverflow

/-- The end of a step of every kind that is not a jump: the next pointer is `pc + 1` (41_control_transfer.md R120). -/
def State.advance (s : State) : Out := s.goto (s.pc.toNat + 1)

/-- The outcome with a function applied to its next state. -/
def mapNext (f : State → State) : Out → Out
  | .next s => .next (f s)
  | .fault r => .fault r
  | .refused r => .refused r

end Sys2Proof.Machine
end

