-- ==== Sys2Proof/Machine/Operands.lean ====
section
/-! DEFINITION. The operand forms: a register or an immediate (10_state.md R23), each read with the bounds check that
60_exceptions.md R170 asks of the register file. The decoder yields no index above 25, so for a decoded instruction the check
always passes (log 9). -/

namespace Sys2Proof.Machine

/-- `eval(o)` (10_state.md R23): the immediate, or the contents of the register; nothing for an index above 25. -/
def State.eval? (s : State) : Operand → Option Word
  | .imm n => some n
  | .reg r => s.getReg? r

/-- Go on with the value of an operand, or raise `RegisterIndexOutOfRange` (60_exceptions.md R170, R173). -/
def State.withOperand (s : State) (x : Operand) (k : Word → Out) : Out :=
  match s.eval? x with
  | some v => k v
  | none => .next (s.raise .registerIndexOutOfRange)

/-- Go on with the value of a register, or raise `RegisterIndexOutOfRange` (60_exceptions.md R170, R173). -/
def State.withReg (s : State) (r : Reg) (k : Word → Out) : Out :=
  match s.getReg? r with
  | some d => k d
  | none => .next (s.raise .registerIndexOutOfRange)

/-- Write the result to the destination and advance (40_register_alu.md R100). -/
def State.writeBack (s : State) (rd : Reg) (v : Word) : Out := (s.setReg rd v).advance

/-- The frame of `add sub mul` (40_register_alu.md R100): `d = x[R]` and `v = eval(X)` read at the start of the step, the exact
result of the kind narrowed, written back. -/
def State.arith (s : State) (rd : Reg) (x : Operand) (f : Int → Int → Int) : Out :=
  s.withReg rd fun d => s.withOperand x fun v => s.writeBack rd (wrap64 (f d.toInt v.toInt))

/-- The frame of the two jumps (41_control_transfer.md R120, R122, R123): the displacement is the value of the offset when the
condition holds, and 1 otherwise. -/
def State.jumpIf (s : State) (x y : Operand) (cond : Int → Bool) : Out :=
  s.withOperand x fun c => s.withOperand y fun d =>
    s.goto (applyDisp s.pc.toNat (if cond c.toInt then d.toInt else 1))

end Sys2Proof.Machine
end

