-- ==== Sys2Proof/Machine/Flags.lean ====
section
/-! DEFINITION. The core has no flags and no condition codes (10_state.md R30). The one Boolean an instruction answers is
the `handled` signal (40_register_alu.md R110), a function of the kind alone and not stored. -/

namespace Sys2Proof.Machine

/-- `handled` (40_register_alu.md R110): 1 for the five kinds the register file applies itself, 0 for the other four. -/
def handledKind : Kind → Bool
  | .set => true
  | .add => true
  | .sub => true
  | .mul => true
  | .mod => true
  | .snd => false
  | .jgz => false
  | .jnz => false
  | .rcv => false

end Sys2Proof.Machine
end

