-- ==== Sys2Proof/Machine/ControlTransfer.lean ====
section
/-! DEFINITION. The next pointer and the two conditional jumps (41_control_transfer.md). -/

namespace Sys2Proof.Machine

/-- `jgz X Y` (R122): jump by `Y` when `X > 0`. -/
def execJgz (x y : Operand) (s : State) : Out := s.jumpIf x y fun c => decide (0 < c)

/-- `jnz X Y` (R123): jump by `Y` when `X` is not 0. -/
def execJnz (x y : Operand) (s : State) : Out := s.jumpIf x y fun c => decide (c ≠ 0)

/-- `next_pointer(I, p)` with `p = pc` (R120), for an instruction whose registers exist. It reads the registers and writes
nothing. The meanings do not call it: that they go where it says is a statement. -/
def nextPointer (s : State) : Instr → Option Nat
  | .set _ _ | .add _ _ | .sub _ _ | .mul _ _ | .mod _ _ | .snd _ | .rcv _ => some (s.pc.toNat + 1)
  | .jgz x y => do
    let c ← s.eval? x
    let d ← s.eval? y
    return applyDisp s.pc.toNat (if c.toInt > 0 then d.toInt else 1)
  | .jnz x y => do
    let c ← s.eval? x
    let d ← s.eval? y
    return applyDisp s.pc.toNat (if c.toInt ≠ 0 then d.toInt else 1)

end Sys2Proof.Machine
end

