-- ==== Sys2Proof/Machine/Handoff.lean ====
section
/-! DEFINITION. The driver hand-off instructions `snd` and `rcv` (42_driver_handoff.md). -/

namespace Sys2Proof.Machine

/-- `snd X` (R141): present the value; it never holds. -/
def execSnd (x : Operand) (s : State) : Out :=
  s.withOperand x fun v => (s.emit (.send v)).advance

/-- `rcv R` (R142, R143): with a value on the port, write it and advance; without one, hold with the state as it is. -/
def execRcv (rd : Reg) (s : State) : Out :=
  s.withReg rd fun _ =>
    if s.portIn.rcvValid then
      ((s.setReg rd s.portIn.rcvData).emit (.recv rd s.portIn.rcvData)).advance
    else .next s

end Sys2Proof.Machine
end

