-- ==== Sys2Proof/Machine/RegisterAlu.lean ====
section
/-! DEFINITION. The register and ALU instructions `set add sub mul mod` (40_register_alu.md). -/

namespace Sys2Proof.Machine

/-- `set R X` (R101): the old value of `R` has no effect. -/
def execSet (rd : Reg) (x : Operand) (s : State) : Out :=
  s.withReg rd fun _ => s.withOperand x fun v => s.writeBack rd v

/-- `add R X` (R102). -/
def execAdd (rd : Reg) (x : Operand) (s : State) : Out := s.arith rd x fun d v => d + v

/-- `sub R X` (R103): the register is the minuend. -/
def execSub (rd : Reg) (x : Operand) (s : State) : Out := s.arith rd x fun d v => d - v

/-- `mul R X` (R104). -/
def execMul (rd : Reg) (x : Operand) (s : State) : Out := s.arith rd x fun d v => d * v

/-- `mod R X` (R105): a zero divisor raises `DivisionByZero`; the remainder always fits, so `wrap64` narrows nothing. -/
def execMod (rd : Reg) (x : Operand) (s : State) : Out :=
  s.withReg rd fun d => s.withOperand x fun v =>
    if v = 0 then .next (s.raise .divisionByZero)
    else s.writeBack rd (wrap64 (trem d.toInt v.toInt))

end Sys2Proof.Machine
end

