-- ==== Sys2Proof/Machine/Dispatch.lean ====
section
/-! DEFINITION. One arm per constructor of Instr (30_encoding.md R60, R67). -/

namespace Sys2Proof.Machine

def exec (i : Instr) (s : State) : Host.Outcome State Fault Refusal :=
  match i with
  | .snd x => Sys2Proof.Machine.execSnd x s
  | .set rd x => Sys2Proof.Machine.execSet rd x s
  | .add rd x => Sys2Proof.Machine.execAdd rd x s
  | .sub rd x => Sys2Proof.Machine.execSub rd x s
  | .mul rd x => Sys2Proof.Machine.execMul rd x s
  | .mod rd x => Sys2Proof.Machine.execMod rd x s
  | .jgz x y => Sys2Proof.Machine.execJgz x y s
  | .jnz x y => Sys2Proof.Machine.execJnz x y s
  | .rcv rd => Sys2Proof.Machine.execRcv rd s

end Sys2Proof.Machine
end

