-- ==== Sys2Proof/Machine/Sequencer.lean ====
section
/-! DEFINITION. The sequencer: fetch, decode, when a step is enabled, the step, and one rising clock edge (43_sequencer.md). -/

namespace Sys2Proof.Machine

/-- The fetch `Prog[pc]` (R154): the word at `pc`, and nothing at or above `L` (20_memory.md R40). -/
def State.fetch (s : State) : Option InstrWord :=
  if s.pc.toNat < s.progLen.toNat then some (s.imem.readWord s.pc.toNat) else none

/-- The decoder's answer for the word at `pc`. -/
def State.decoded (s : State) : Option DecodeResult := s.fetch.map decodeWord

/-- The Instruction at `pc`, when there is one. -/
def State.currentInstr? (s : State) : Option Instr :=
  match s.decoded with
  | some (.instr i) => some i
  | some .illegal => none
  | some .badRegister => none
  | none => none

/-- `run = Running` and `fault = None`: the two conditions of R155 on the core's own state. -/
def State.active (s : State) : Bool := decide (s.run = .running) && s.fault.isNone

/-- The Instruction at `pc` is a `Receive` and the driver supplies no value: the hold (42_driver_handoff.md R143). -/
def State.awaitsValue (s : State) : Bool :=
  match s.currentInstr? with
  | some (.rcv _) => !s.portIn.rcvValid
  | _ => false

/-- A step is taken exactly when all of R155's conditions hold. -/
def State.stepEnabled (s : State) : Bool :=
  !s.portIn.rst && s.active && s.portIn.go && !s.awaitsValue

/-- The step of R150: fetch, decode, raise or execute. -/
def State.takeStep (s : State) : Out :=
  match s.decoded with
  | none => .fault .fetchOutsideProgram
  | some .illegal => .next (s.raise .illegalInstruction)
  | some .badRegister => .next (s.raise .registerIndexOutOfRange)
  | some (.instr i) => exec i s

/-- What the edge does to the core: reset first (70_reset_and_hazards.md R200), else the step when it is enabled, else the
driver's register write when it asks for one (43_sequencer.md R159). -/
def State.coreEdge (s : State) : Out :=
  if s.portIn.rst then .next s.applyReset
  else if s.stepEnabled then s.takeStep
  else .next s.driverWrite

/-- One rising clock edge, after which the next port values are due (log 3). -/
def State.clockEdge (s : State) : Out := mapNext State.endEdge s.coreEdge

end Sys2Proof.Machine
end

