-- ==== Sys2Proof/Machine/Launch.lean ====
section
/-! DEFINITION. Launch (70_reset_and_hazards.md R201): loading a Program, reset and presets; and the placing of one word that
the host's test uses. -/

namespace Sys2Proof.Machine

/-- The launch premise: every word decodes to an Instruction (30_encoding.md R79) and the length is at most `MAXLEN`
(00_scope.md R5). -/
def launchPremise (ws : List InstrWord) : Bool :=
  decide (ws.length ≤ Config.maxLen) &&
    ws.all fun w => match decodeWord w with
      | .instr _ => true
      | .illegal => false
      | .badRegister => false

/-- Put a Program in the instruction space and its length on `prog_len` (R201 step 1). -/
def State.load (s : State) (ws : List InstrWord) : State :=
  { s with progLen := BitVec.ofNat 64 ws.length, imem := Memory.writeWords [] 0 ws }

/-- Launch: load, then reset with `prog_len` valid, then run under the given driver (R201); nothing when the launch premise
fails. Presets (42_driver_handoff.md R145) are the driver's first entries, `presetEdge`. -/
def launch (ws : List InstrWord) (driver : List PortIn) : Option State :=
  if launchPremise ws then some { (State.reset.load ws).applyReset with driver := driver } else none

/-- The edge at which the driver presets a register: the core is not let step (R145, R201 step 3). -/
def presetEdge (r : Reg) (v : Word) : PortIn :=
  { PortIn.freeRun with go := false, regSel := r, regWe := true, regWdata := v }

/-- The edge at which the driver lets the core step and supplies a value, should a `rcv` ask for one. -/
def supplyEdge (v : Word) : PortIn := { PortIn.freeRun with rcvValid := true, rcvData := v }

/-- The instruction address the placed word goes to: the pc, or 0 when the pc is no address of a Program. -/
def State.placeAddr (s : State) : Nat := if s.pc.toNat < Config.maxLen then s.pc.toNat else 0

/-- The state with a word placed so that the very next edge runs it (log 7): it lies where the fetch reads, inside the Program,
the core is running and not faulted, and the driver lets it step with the value it has for a `rcv`. -/
def State.placeWord (s : State) (w : InstrWord) : State :=
  { s with
    pc      := BitVec.ofNat 64 s.placeAddr
    run     := .running
    fault   := none
    progLen := if s.placeAddr < s.progLen.toNat then s.progLen else BitVec.ofNat 64 (s.placeAddr + 1)
    imem    := s.imem.writeWord s.placeAddr w
    driver  := { s.portIn with rst := false, go := true, rcvValid := true } :: s.driver.tail }

end Sys2Proof.Machine
end

