-- ==== Sys2Proof/Machine/Step.lean ====
section
/-! DEFINITION. The host's step: one rising clock edge (43_sequencer.md R159, "one enabled clock edge is one step"). -/

namespace Sys2Proof.Machine

/-- One rising clock edge. -/
def step (s : State) : Host.Outcome State Fault Refusal := s.clockEdge

/-- The state with an instruction word placed where the next step fetches (log 7). -/
def State.withFetchWord (s : State) (nbits w : Nat) : State := s.placeWord (tableWord nbits w)

end Sys2Proof.Machine
end

