-- ==== Sys2Proof/Machine/Utf8.lean ====
section
/-! DEFINITION. UTF-8, the form a program text is stored in (30_encoding.md R70: "The text is UTF-8"). The spec does not spell
the form out: it is the standard one, shortest forms of the Unicode scalar values (log 14, PRESUMED). -/

namespace Sys2Proof.Machine

/-- A text: a token, a line or a program text. -/
abbrev Text := List Char

/-- A Unicode scalar value: below `0x110000` and no surrogate. -/
def isScalar (n : Nat) : Bool := decide (n < 0xD800) || (decide (0xDFFF < n) && decide (n < 0x110000))

/-- What a byte is in UTF-8. -/
inductive Utf8Byte where
  /-- A character of one byte. -/
  | single
  /-- The first byte of a character that `more` bytes continue; `bits` are its own bits of the number, and a number below
  `least` has a shorter form. -/
  | lead (more least bits : Nat)
  /-- A byte that continues a character. -/
  | continuation (bits : Nat)
  /-- `0xF8` to `0xFF`, which no text has. -/
  | never
  deriving DecidableEq, Repr

/-- The kinds of byte, by the leading bits. -/
def utf8Byte (b : Byte) : Utf8Byte :=
  let n := b.toNat
  if n < 0x80 then .single
  else if n < 0xC0 then .continuation (n - 0x80)
  else if n < 0xE0 then .lead 1 0x80 (n - 0xC0)
  else if n < 0xF0 then .lead 2 0x800 (n - 0xE0)
  else if n < 0xF8 then .lead 3 0x10000 (n - 0xF0)
  else .never

/-- Decode bytes inside a character that `more` bytes continue, whose number so far is `acc` and at least `least` at its end;
`more = 0` is between characters. -/
def decodeUtf8From (more least acc : Nat) : List Byte → Option Text
  | [] => if more = 0 then some [] else none
  | b :: bs =>
    match utf8Byte b with
    | .single => if more = 0 then (decodeUtf8From 0 0 0 bs).map (Char.ofNat b.toNat :: ·) else none
    | .lead more' least' bits => if more = 0 then decodeUtf8From more' least' bits bs else none
    | .continuation bits =>
      let n := acc * 64 + bits
      if more = 0 then none
      else if more = 1 then
        if least ≤ n ∧ isScalar n = true then (decodeUtf8From 0 0 0 bs).map (Char.ofNat n :: ·) else none
      else decodeUtf8From (more - 1) least n bs
    | .never => none

/-- The text that bytes spell in UTF-8; none when they are not UTF-8. -/
def decodeUtf8 (bs : List Byte) : Option Text := decodeUtf8From 0 0 0 bs

/-- The continuation byte of bits `6k + 5` to `6k` of a number. -/
def continuationByte (n k : Nat) : Byte := BitVec.ofNat 8 (0x80 + n / 64 ^ k % 64)

/-- The bytes of a character. -/
def encodeUtf8Char (c : Char) : List Byte :=
  let n := c.toNat
  if n < 0x80 then [BitVec.ofNat 8 n]
  else if n < 0x800 then [BitVec.ofNat 8 (0xC0 + n / 64), continuationByte n 0]
  else if n < 0x10000 then [BitVec.ofNat 8 (0xE0 + n / 64 ^ 2), continuationByte n 1, continuationByte n 0]
  else [BitVec.ofNat 8 (0xF0 + n / 64 ^ 3), continuationByte n 2, continuationByte n 1, continuationByte n 0]

/-- The bytes of a text. -/
def encodeUtf8 (t : Text) : List Byte := t.flatMap encodeUtf8Char

end Sys2Proof.Machine
end

