-- ==== Sys2Proof/Machine/Assembler.lean ====
section
/-! DEFINITION. The text form: operand resolver, line decoder, renderer, program loader and assembling (30_encoding.md
section 2, R81). A text is a list of characters; the bytes of a stored text become one in Machine/Utf8.lean. -/

namespace Sys2Proof.Machine

/-- A load-time error (R71). -/
inductive LoadError where
  /-- The offending token: it is neither a register nor an immediate (R62). -/
  | malformedOperand (token : Text)
  /-- The offending raw line: it spells no instruction (R65). -/
  | malformedInstruction (line : Text)
  /-- The line count exceeds `MAXLEN` (R70). The name is the model's (log 19). -/
  | programTooLong
  /-- The bytes are not UTF-8, so they are no text (R70). That this is an error of its own is the model's choice (log 14). -/
  | malformedUtf8
  deriving DecidableEq, Repr

/-! ### Tokens (R62 to R64) -/

/-- One lowercase ASCII letter (R64). -/
def isLower (c : Char) : Bool := decide (97 ≤ c.toNat) && decide (c.toNat ≤ 122)

/-- One decimal digit (R63). -/
def isDigit (c : Char) : Bool := decide (48 ≤ c.toNat) && decide (c.toNat ≤ 57)

/-- `reg(c) = ascii(c) - ascii('a')` (10_state.md R21). -/
def regOfLetter (c : Char) : Reg := BitVec.ofNat 5 (c.toNat - 97)

/-- A register token: exactly one lowercase ASCII letter (R64). -/
def registerToken : Text → Option Reg
  | [c] => if isLower c then some (regOfLetter c) else none
  | _ => none

/-- The number decimal digits spell after `acc`, most significant first; none on any other character (R63). -/
def digitsValue : Nat → Text → Option Nat
  | acc, [] => some acc
  | acc, c :: cs => if isDigit c then digitsValue (acc * 10 + (c.toNat - 48)) cs else none

/-- One or more decimal digits. -/
def natToken : Text → Option Nat
  | [] => none
  | c :: cs => digitsValue 0 (c :: cs)

/-- The integer of `-?[0-9]+` (R63). -/
def intToken : Text → Option Int
  | '-' :: cs => (natToken cs).map fun n => -(n : Int)
  | cs => (natToken cs).map fun n => (n : Int)

/-- An immediate token: the grammar of R63 with the value in `MIN .. MAX`. -/
def immediateToken (t : Text) : Option Word :=
  match intToken t with
  | some n => if Config.minInt ≤ n ∧ n ≤ Config.maxInt then some (wrap64 n) else none
  | none => none

/-- The operand resolver (R62): a register token, else an immediate token, else `MalformedOperand`. -/
def resolve (t : Text) : Except LoadError Operand :=
  match registerToken t with
  | some r => .ok (.reg r)
  | none =>
    match immediateToken t with
    | some n => .ok (.imm n)
    | none => .error (.malformedOperand t)

/-! ### Lines (R65 to R67) -/

/-- The pieces of a text between the occurrences of a character; a text has at least one piece. -/
def splitAt (sep : Char) : Text → List Text
  | [] => [[]]
  | c :: cs =>
    if c = sep then [] :: splitAt sep cs
    else
      match splitAt sep cs with
      | [] => [[c]]
      | p :: ps => (c :: p) :: ps

/-- The whitespace trimmed at the ends of a line: space, tab, carriage return (R65). -/
def isBlank (c : Char) : Bool := c = ' ' || c = '\t' || c = '\r'

/-- The line without leading and trailing whitespace (R65). -/
def trim (t : Text) : Text := ((t.dropWhile isBlank).reverse.dropWhile isBlank).reverse

/-- The mnemonic of a kind (R67). -/
def mnemonicOf : Kind → Text
  | .snd => ['s', 'n', 'd']
  | .set => ['s', 'e', 't']
  | .add => ['a', 'd', 'd']
  | .sub => ['s', 'u', 'b']
  | .mul => ['m', 'u', 'l']
  | .mod => ['m', 'o', 'd']
  | .jgz => ['j', 'g', 'z']
  | .jnz => ['j', 'n', 'z']
  | .rcv => ['r', 'c', 'v']

/-- The kinds in the priority order of R66. -/
def allKinds : List Kind := [.snd, .set, .add, .sub, .mul, .mod, .jgz, .jnz, .rcv]

/-- The kind a mnemonic names: the first structural match (R66). -/
def kindOfMnemonic (m : Text) : Option Kind := allKinds.find? fun k => decide (mnemonicOf k = m)

/-- The operand a token stands for, none on `MalformedOperand`. -/
def operandToken (t : Text) : Option Operand := (resolve t).toOption

/-- The instruction of a kind and its argument tokens: arity and argument classes of R67. -/
def instrOfTokens : Kind → List Text → Option Instr
  | .snd, [x] => (operandToken x).map .snd
  | .set, [r, x] => (registerToken r).bind fun rd => (operandToken x).map (.set rd)
  | .add, [r, x] => (registerToken r).bind fun rd => (operandToken x).map (.add rd)
  | .sub, [r, x] => (registerToken r).bind fun rd => (operandToken x).map (.sub rd)
  | .mul, [r, x] => (registerToken r).bind fun rd => (operandToken x).map (.mul rd)
  | .mod, [r, x] => (registerToken r).bind fun rd => (operandToken x).map (.mod rd)
  | .jgz, [x, y] => (operandToken x).bind fun c => (operandToken y).map (.jgz c)
  | .jnz, [x, y] => (operandToken x).bind fun c => (operandToken y).map (.jnz c)
  | .rcv, [r] => (registerToken r).map .rcv
  | _, _ => none

/-- The instruction the pieces of a trimmed line spell. An empty piece is no mnemonic and no argument (R65). -/
def instrOfPieces : List Text → Option Instr
  | [] => none
  | m :: args => (kindOfMnemonic m).bind fun k => instrOfTokens k args

/-- The line decoder (R65): every failure is `MalformedInstruction` with the raw line. -/
def decodeLine (line : Text) : Except LoadError Instr :=
  match instrOfPieces (splitAt ' ' (trim line)) with
  | some i => .ok i
  | none => .error (.malformedInstruction line)

/-! ### The renderer (R68) -/

/-- The letter of a register (R68, `97 + i`). -/
def letterOfReg (r : Reg) : Char := Char.ofNat (97 + r.toNat)

/-- The digit character of a number below 10. -/
def digitChar (d : Nat) : Char := Char.ofNat (48 + d)

/-- The decimal digits of a number, with at most `fuel` of them. -/
def decimalDigits : Nat → Nat → Text
  | 0, _ => []
  | fuel + 1, n => if n < 10 then [digitChar n] else decimalDigits fuel (n / 10) ++ [digitChar (n % 10)]

/-- The shortest decimal numeral of a signed 64-bit integer (R68). Its magnitude has at most 19 digits. -/
def renderInt (n : Int) : Text :=
  if n < 0 then '-' :: decimalDigits 20 n.natAbs else decimalDigits 20 n.natAbs

/-- The text of an operand (R68). -/
def renderOperand : Operand → Text
  | .reg r => [letterOfReg r]
  | .imm n => renderInt n.toInt

/-- The argument texts of an instruction. -/
def renderArgs : Instr → List Text
  | .snd x => [renderOperand x]
  | .set rd x => [[letterOfReg rd], renderOperand x]
  | .add rd x => [[letterOfReg rd], renderOperand x]
  | .sub rd x => [[letterOfReg rd], renderOperand x]
  | .mul rd x => [[letterOfReg rd], renderOperand x]
  | .mod rd x => [[letterOfReg rd], renderOperand x]
  | .jgz x y => [renderOperand x, renderOperand y]
  | .jnz x y => [renderOperand x, renderOperand y]
  | .rcv rd => [[letterOfReg rd]]

/-- The mnemonic and the arguments, one space before each argument. -/
def joinSpaced (head : Text) : List Text → Text
  | [] => head
  | t :: ts => joinSpaced (head ++ ' ' :: t) ts

/-- `render` (R68): the canonical text of an instruction. -/
def render (i : Instr) : Text := joinSpaced (mnemonicOf i.kind) (renderArgs i)

/-! ### Programs (R70, R81) -/

/-- The lines of a program text: split at line feeds, without the empty piece after a final line feed; the empty text has no
line (R70). -/
def textLines (t : Text) : List Text :=
  let pieces := splitAt '\n' t
  if pieces.getLast? = some [] then pieces.dropLast else pieces

/-- Decode lines in order; any failure fails the whole load (R70). R70 does not say which line's error is reported when several
fail: that it is the first in source order is the model's choice (log 20, DESIGN CHOICE). -/
def decodeLines : List Text → Except LoadError (List Instr)
  | [] => .ok []
  | l :: ls =>
    match decodeLine l with
    | .error e => .error e
    | .ok i =>
      match decodeLines ls with
      | .error e => .error e
      | .ok is => .ok (i :: is)

/-- `load(text)` (R70): the Program in source order, or a fatal error and no partial Program. R70 does not say which error is
reported for a text that is too long and has a line that fails: that the length is tested first is the model's choice
(log 20, DESIGN CHOICE). -/
def loadText (t : Text) : Except LoadError (List Instr) :=
  if Config.maxLen < (textLines t).length then .error .programTooLong else decodeLines (textLines t)

/-- `load` of a stored text, its UTF-8 bytes (R70). Bytes that are not UTF-8 fail before any line is looked at (log 14). -/
def loadBytes (bs : List Byte) : Except LoadError (List Instr) :=
  match decodeUtf8 bs with
  | some t => loadText t
  | none => .error .malformedUtf8

/-- The binary image of a Program (R81). -/
def assemble (is : List Instr) : List InstrWord := is.map encodeWord

/-- `render(decode_word(w))` (R81). -/
def disassemble (w : InstrWord) : Option Text :=
  match decodeWord w with
  | .instr i => some (render i)
  | .illegal => none
  | .badRegister => none

end Sys2Proof.Machine
end

