-- ==== Sys2Proof/Machine/Ports.lean ====
section
/-! DEFINITION. The output ports, functions of the state before the coming edge (43_sequencer.md R158, R159;
42_driver_handoff.md R144; 40_register_alu.md R110). A port whose value the spec calls not meaningful has none here (log 13). -/

namespace Sys2Proof.Machine

/-- The output ports (43_sequencer.md R159). -/
structure PortOut where
  imemAddr   : Addr
  halted     : Bool
  pcOut      : Addr
  faultCause : BitVec 2
  faultPc    : Addr
  /-- None where it is not meaningful: the coming edge is a step that faults (R110, D30), or there is no Instruction at `pc`
  (R144), which is so while the core is not `Running` (`imem_word` is then ignored, R159). -/
  handled    : Option Bool
  sndValid   : Bool
  /-- Some exactly when `snd_valid = 1`. -/
  sndData    : Option Word
  rcvReq     : Bool
  /-- Some exactly when `rcv_req = 1`. -/
  rcvReg     : Option Reg
  regRdata   : Word
  deriving DecidableEq, Repr

/-- The cause code (60_exceptions.md R175). -/
def Cause.code : Cause → BitVec 2
  | .illegalInstruction => 1
  | .registerIndexOutOfRange => 2
  | .divisionByZero => 3

/-- `fault_cause`: 0 means no fault (10_state.md R31). -/
def State.faultCause (s : State) : BitVec 2 :=
  match s.fault with
  | some f => f.cause.code
  | none => 0

/-- `fault_pc`: 0 while no fault is recorded (60_exceptions.md R175). -/
def State.faultPc (s : State) : Addr :=
  match s.fault with
  | some f => f.fpc
  | none => 0

/-- The Instruction at `pc` while the core is `Running` and not faulted. -/
def State.activeInstr? (s : State) : Option Instr := if s.active then s.currentInstr? else none

/-- The Instruction on `imem_word`, which is ignored while the core is not `Running` (R159). A fault does not hide it. -/
def State.shownInstr? (s : State) : Option Instr := if s.run = .running then s.currentInstr? else none

/-- The instruction divides by zero here (60_exceptions.md R176). -/
def State.dividesByZero (s : State) : Instr → Bool
  | .mod _ x => decide (s.eval? x = some 0)
  | _ => false

/-- `handled` (40_register_alu.md R110): of the kind alone, and none where it is not meaningful. A `mod` by zero at which no step
is taken, because the core is held back, in reset or already faulted, shows its kind like any other. -/
def State.handledOut (s : State) : Option Bool :=
  match s.shownInstr? with
  | some i => if s.stepEnabled && s.dividesByZero i then none else some (handledKind i.kind)
  | none => none

/-- `snd_data`, some exactly when `snd_valid = 1`: the coming edge is a step that executes a `Send` (R144). -/
def State.sndOut (s : State) : Option Word :=
  match s.stepEnabled, s.currentInstr? with
  | true, some (.snd x) => s.eval? x
  | _, _ => none

/-- `rcv_reg`, some exactly when `rcv_req = 1`: the Instruction at `pc` is a `Receive` and the core is `Running` and not
faulted (R144). -/
def State.rcvOut (s : State) : Option Reg :=
  match s.activeInstr? with
  | some (.rcv rd) => some rd
  | _ => none

/-- The output ports of the state. -/
def State.portOut (s : State) : PortOut where
  imemAddr   := s.pc
  halted     := decide (s.run = .halted)
  pcOut      := s.pc
  faultCause := s.faultCause
  faultPc    := s.faultPc
  handled    := s.handledOut
  sndValid   := s.sndOut.isSome
  sndData    := s.sndOut
  rcvReq     := s.rcvOut.isSome
  rcvReg     := s.rcvOut
  regRdata   := s.readPort s.portIn.regSel

end Sys2Proof.Machine
end

