-- ==== Sys2Proof/Safety.lean ====
section
/-! DEFINITION. The terms claims are made in: the invariant of 10_state.md R36, the ends of a run (43_sequencer.md R156), runs,
and what an instruction leaves unchanged. -/

namespace Sys2Proof.Machine

/-- The next state of an outcome, when it has one. -/
def nextState? : Out → Option State
  | .next s => some s
  | .fault _ => none
  | .refused _ => none

/-! ### The invariant -/

/-- 10_state.md R36 (b) to (e), for a Program within `MAXLEN` (00_scope.md R5) whose image has its canonical form. Part (a), every
register in `MIN .. MAX`, is the type `Word`. -/
structure State.Inv (s : State) : Prop where
  /-- R5: `L <= MAXLEN`. -/
  lenOk    : s.progLen.toNat ≤ Config.maxLen
  /-- The image is canonical. -/
  imageOk  : s.imem.wf
  /-- R36 (b): `run = Running` implies `pc < L`. -/
  running  : s.run = .running → s.pc.toNat < s.progLen.toNat
  /-- R36 (c): `run = Halted` implies `pc >= L`. -/
  halted   : s.run = .halted → s.progLen.toNat ≤ s.pc.toNat
  /-- R36 (d): a fault implies `run = Running` and `fpc = pc`. -/
  faulted  : ∀ f, s.fault = some f → s.run = .running ∧ f.fpc = s.pc
  /-- R36 (e): `pc = SENTINEL` only in `Halted`. -/
  sentinel : s.pc.toNat = Config.sentinel → s.run = .halted

/-! ### Ends of a run (43_sequencer.md R156) -/

/-- The run has ended: the only final state. -/
def State.isFinal (s : State) : Bool := decide (s.run = .halted) && s.fault.isNone

/-- The run failed: a fault is recorded (60_exceptions.md R174). -/
def State.isFailed (s : State) : Bool := s.fault.isSome

/-- The core is held on a `rcv` (42_driver_handoff.md R143). -/
def State.isHeld (s : State) : Bool := s.active && s.awaitsValue

/-- `k` clock edges lead from one state to another, whatever the driver does, resets included. -/
def StepsTo : Nat → State → State → Prop
  | 0, s, t => s = t
  | k + 1, s, t => ∃ u, step s = .next u ∧ StepsTo k u t

/-! ### Runs under the driver contract (70_reset_and_hazards.md R204; 42_driver_handoff.md R145, R147)

Of the three things R204 forbids the driver, changing the Program or `prog_len` has no move in the model, a `prog_len` above
`2^63` is refused by `launch` and by the invariant, and register writes in mid-run are shut out here. The hardware's port
honours them (43_sequencer.md R159, 90_conflicts.md C11; log 12), so `step` does. -/

/-- The coming edge is one of a run under the driver contract, given whether the run's first step was taken: no reset, which
starts a new run (70_reset_and_hazards.md R207), and no register write after the first step (R145 (c), R204). -/
def State.keepsContract (started : Bool) (s : State) : Prop :=
  s.portIn.rst = false ∧ (started = true → s.portIn.regWe = false)

/-- `k` clock edges of a run under the driver contract lead from one state to another. `started` says whether the run's first
step was taken before them; it is false at launch. -/
def RunTo : Bool → Nat → State → State → Prop
  | _, 0, s, t => s = t
  | started, k + 1, s, t => s.keepsContract started ∧ ∃ u, step s = .next u ∧ RunTo (started || s.stepEnabled) k u t

/-- A safe run from a launched state: `k` clock edges under the driver contract, none of which stops the machine, to a state
with no fault recorded. -/
def SafeRun (k : Nat) (s : State) : Prop := ∃ t, RunTo false k s t ∧ t.isFailed = false

/-! ### Frames -/

/-- Every register except those named by `changed` reads as before, all 32 codes of a register field alike. -/
def SameRegsBut (changed : Reg → Prop) (s t : State) : Prop := ∀ r, ¬ changed r → t.readPort r = s.readPort r

/-- Every byte of the instruction space, the program length and the driver's coming port values are as before. -/
def SameOutside (s t : State) : Prop :=
  (∀ a, t.imem.read a = s.imem.read a) ∧ t.progLen = s.progLen ∧ t.driver = s.driver

/-- The run state 43_sequencer.md R151 gives for the next pointer `n` and the program length. -/
def runAt (s : State) (n : Nat) : RunState :=
  if n < s.progLen.toNat ∧ n ≠ Config.sentinel then .running else .halted

/-- `eval(o)` of 10_state.md R23 for an operand whose register exists. -/
def State.value (s : State) : Operand → Word
  | .imm n => n
  | .reg r => s.readPort r

/-- The integer `wrap64(n)` of 00_scope.md R7, `((n + 2^63) mod 2^64) - 2^63` with the floor modulus. -/
def wrapInt (n : Int) : Int := (n + 2 ^ 63) % 2 ^ 64 - 2 ^ 63

/-- The end of a step that wrote only the registers in `changed`, went to `n` and emitted `es` (43_sequencer.md R150, R151): the
rest of the state is as before. -/
structure Retired (s t : State) (changed : Reg → Prop) (n : Nat) (es : List Event) : Prop where
  regs    : SameRegsBut changed s t
  pc      : t.pc.toNat = n
  run     : t.run = runAt s n
  fault   : t.fault = s.fault
  trace   : t.trace = s.trace ++ es
  outside : SameOutside s t

/-- No register. -/
def noReg : Reg → Prop := fun _ => False

/-- The register an instruction writes (10_state.md R22). -/
def Instr.dest? : Instr → Option Reg
  | .set rd _ | .add rd _ | .sub rd _ | .mul rd _ | .mod rd _ | .rcv rd => some rd
  | .snd _ | .jgz _ _ | .jnz _ _ => none

/-- The state a fault entry leaves (60_exceptions.md R174): the latch records the cause and the pc, nothing else differs. -/
structure FaultEntered (s t : State) (c : Cause) : Prop where
  latch   : t.fault = some { cause := c, fpc := s.pc }
  regs    : SameRegsBut noReg s t
  pc      : t.pc = s.pc
  run     : t.run = s.run
  trace   : t.trace = s.trace
  outside : SameOutside s t

end Sys2Proof.Machine
end

