-- ==== Sys2Proof/Certificates/Slice0/Obligations.lean ====
section
/-! DEFINITION. The statements for the provers. Each docstring names the rule of spec/ it formalises. -/

open Sys2Proof Sys2Proof.Machine

/-! ### Reset and registers -/

/-- 70_reset_and_hazards.md R200 (the values of 10_state.md R35): an edge with `rst` asserted, whatever else the ports ask and
whatever the state, puts every piece of state of the core at its reset value. -/
def Obligations.ResetEdgeGivesResetValues : Prop :=
  ∀ s : State, s.portIn.rst = true →
    ∃ t, step s = .next t ∧ (∀ r, t.readPort r = 0) ∧ t.pc = 0 ∧ t.fault = none ∧
      (0 < s.progLen.toNat → t.run = .running) ∧ (s.progLen.toNat = 0 → t.run = .halted)

/-- The state after reset. Registers, pc, run and fault are 10_state.md R35's values for `L = 0`; that nothing is loaded, so
that `L = 0`, is the model's choice (log 6). -/
def Obligations.ResetStateHoldsResetValues : Prop :=
  (∀ r, State.reset.readPort r = 0) ∧ State.reset.pc = 0 ∧ State.reset.progLen = 0 ∧ State.reset.run = .halted ∧
    State.reset.fault = none ∧ State.reset.imem.wf

/-- 10_state.md R24: a register written reads back, and the write changes that register only. -/
def Obligations.RegisterReadsBackWhatWasWritten : Prop :=
  ∀ (s : State) (r : Reg) (v : Word), regOk r = true →
    (s.setReg r v).getReg? r = some v ∧ (∀ q, q ≠ r → (s.setReg r v).getReg? q = s.getReg? q) ∧
      (s.setReg r v).pc = s.pc ∧ (s.setReg r v).run = s.run ∧ (s.setReg r v).fault = s.fault

/-- 10_state.md R22: when an instruction gives a next state, a register that changed is the instruction's destination. -/
def Obligations.OnlyTheDestinationRegisterChanges : Prop :=
  ∀ (i : Instr) (s t : State) (r : Reg), exec i s = .next t → t.readPort r ≠ s.readPort r → Instr.dest? i = some r

/-! ### Register and ALU instructions -/

/-- 40_register_alu.md R101: `set R X`, with its frame. -/
def Obligations.SetCompletes : Prop :=
  ∀ (rd : Reg) (x : Operand) (s : State), (Instr.set rd x).wf = true → s.pc.toNat < Config.maxLen →
    ∃ t, exec (.set rd x) s = .next t ∧ t.readPort rd = s.value x ∧ Retired s t (· = rd) (s.pc.toNat + 1) []

/-- 40_register_alu.md R102: `add R X` is the wrapped exact sum, with its frame. -/
def Obligations.AddCompletes : Prop :=
  ∀ (rd : Reg) (x : Operand) (s : State), (Instr.add rd x).wf = true → s.pc.toNat < Config.maxLen →
    ∃ t, exec (.add rd x) s = .next t ∧
      (t.readPort rd).toInt = wrapInt ((s.readPort rd).toInt + (s.value x).toInt) ∧
      Retired s t (· = rd) (s.pc.toNat + 1) []

/-- 40_register_alu.md R103: `sub R X` is the wrapped exact difference, the register the minuend, with its frame. -/
def Obligations.SubCompletes : Prop :=
  ∀ (rd : Reg) (x : Operand) (s : State), (Instr.sub rd x).wf = true → s.pc.toNat < Config.maxLen →
    ∃ t, exec (.sub rd x) s = .next t ∧
      (t.readPort rd).toInt = wrapInt ((s.readPort rd).toInt - (s.value x).toInt) ∧
      Retired s t (· = rd) (s.pc.toNat + 1) []

/-- 40_register_alu.md R104: `mul R X` is the wrapped exact product, with its frame. -/
def Obligations.MulCompletes : Prop :=
  ∀ (rd : Reg) (x : Operand) (s : State), (Instr.mul rd x).wf = true → s.pc.toNat < Config.maxLen →
    ∃ t, exec (.mul rd x) s = .next t ∧
      (t.readPort rd).toInt = wrapInt ((s.readPort rd).toInt * (s.value x).toInt) ∧
      Retired s t (· = rd) (s.pc.toNat + 1) []

/-- 40_register_alu.md R105 with a divisor other than 0: the exact truncating remainder of 00_scope.md R8, unnarrowed, with its
frame. -/
def Obligations.ModCompletes : Prop :=
  ∀ (rd : Reg) (x : Operand) (s : State), (Instr.mod rd x).wf = true → s.value x ≠ 0 → s.pc.toNat < Config.maxLen →
    ∃ t, exec (.mod rd x) s = .next t ∧
      (t.readPort rd).toInt =
        (s.readPort rd).toInt - (s.value x).toInt * Int.tdiv (s.readPort rd).toInt (s.value x).toInt ∧
      Retired s t (· = rd) (s.pc.toNat + 1) []

/-- 60_exceptions.md R176: `mod` with a zero divisor takes the `DivisionByZero` fault, whatever the dividend and the pc. -/
def Obligations.ModByZeroRaises : Prop :=
  ∀ (rd : Reg) (x : Operand) (s : State), (Instr.mod rd x).wf = true → s.value x = 0 →
    ∃ t, exec (.mod rd x) s = .next t ∧ FaultEntered s t .divisionByZero

/-- 00_scope.md R7: `wrap64` is `((n + 2^63) mod 2^64) - 2^63`, and so the identity on `MIN .. MAX`. -/
def Obligations.WrapFollowsTheFormula : Prop :=
  ∀ n : Int, (wrap64 n).toInt = wrapInt n ∧ (Config.minInt ≤ n → n ≤ Config.maxInt → (wrap64 n).toInt = n)

/-- 40_register_alu.md R106: the results of `add`, `sub` and `mul` are the low 64 bits of the exact result of the operands read
as unsigned numbers as well. -/
def Obligations.LowBitsDoNotDependOnSignedness : Prop :=
  ∀ (rd : Reg) (x : Operand) (s t : State), (regOk rd && x.wf) = true →
    (exec (.add rd x) s = .next t → (t.readPort rd).toNat = ((s.readPort rd).toNat + (s.value x).toNat) % 2 ^ 64) ∧
    (exec (.sub rd x) s = .next t →
      (t.readPort rd).toNat = ((s.readPort rd).toNat + (2 ^ 64 - (s.value x).toNat)) % 2 ^ 64) ∧
    (exec (.mul rd x) s = .next t → (t.readPort rd).toNat = ((s.readPort rd).toNat * (s.value x).toNat) % 2 ^ 64)

/-- 00_scope.md R8: what `mod` leaves is zero or has the sign of the dividend, is smaller in magnitude than the divisor, and
differs from the dividend by a multiple of the divisor. -/
def Obligations.RemainderFollowsTheDividend : Prop :=
  ∀ (rd : Reg) (x : Operand) (s t : State), (Instr.mod rd x).wf = true → s.value x ≠ 0 → exec (.mod rd x) s = .next t →
    ((t.readPort rd).toInt ≠ 0 → (0 < (t.readPort rd).toInt ↔ 0 < (s.readPort rd).toInt)) ∧
    (t.readPort rd).toInt.natAbs < (s.value x).toInt.natAbs ∧
    ∃ q : Int, (s.readPort rd).toInt = (s.value x).toInt * q + (t.readPort rd).toInt

/-- 40_register_alu.md R109: with the same register as source and destination, `set` keeps it, `add` doubles it, `sub` clears
it, `mul` squares it, and `mod` clears it when it is not 0 and faults when it is 0. -/
def Obligations.SameRegisterAsSourceAndDestination : Prop :=
  ∀ (r : Reg) (s : State), regOk r = true → s.pc.toNat < Config.maxLen →
    (∃ t, exec (.set r (.reg r)) s = .next t ∧ ∀ q, t.readPort q = s.readPort q) ∧
    (∃ t, exec (.add r (.reg r)) s = .next t ∧ (t.readPort r).toInt = wrapInt (2 * (s.readPort r).toInt)) ∧
    (∃ t, exec (.sub r (.reg r)) s = .next t ∧ t.readPort r = 0) ∧
    (∃ t, exec (.mul r (.reg r)) s = .next t ∧
      (t.readPort r).toInt = wrapInt ((s.readPort r).toInt * (s.readPort r).toInt)) ∧
    (s.readPort r ≠ 0 → ∃ t, exec (.mod r (.reg r)) s = .next t ∧ t.readPort r = 0 ∧ t.fault = s.fault) ∧
    (s.readPort r = 0 → ∃ t, exec (.mod r (.reg r)) s = .next t ∧ FaultEntered s t .divisionByZero)

/-- 60_exceptions.md R175: once decoded, no instruction but `mod` faults. -/
def Obligations.OnlyModFaultsOnceDecoded : Prop :=
  ∀ (i : Instr) (s t : State), i.wf = true → exec i s = .next t → t.fault ≠ s.fault →
    ∃ rd x, i = .mod rd x ∧ s.value x = 0 ∧ FaultEntered s t .divisionByZero

/-! ### Control transfer -/

/-- 41_control_transfer.md R121: `apply_disp(p, d)` for an address of a Program and a 64-bit displacement. -/
def Obligations.DisplacementApplication : Prop :=
  ∀ (p : Nat) (d : Word), p < Config.maxLen →
    (0 ≤ d.toInt → (applyDisp p d.toInt : Int) = p + d.toInt ∧ applyDisp p d.toInt ≤ 2 ^ 64 - 2) ∧
    (d.toInt < 0 → d.toInt.natAbs ≤ p → (applyDisp p d.toInt : Int) = p + d.toInt ∧ applyDisp p d.toInt < p) ∧
    (d.toInt < 0 → p < d.toInt.natAbs → applyDisp p d.toInt = 2 ^ 64 - 1)

/-- 41_control_transfer.md R122: `jgz X Y`, with its frame. -/
def Obligations.JgzCompletes : Prop :=
  ∀ (x y : Operand) (s : State), (Instr.jgz x y).wf = true → s.pc.toNat < Config.maxLen →
    ∃ t, exec (.jgz x y) s = .next t ∧
      (0 < (s.value x).toInt → Retired s t noReg (applyDisp s.pc.toNat (s.value y).toInt) []) ∧
      ((s.value x).toInt ≤ 0 → Retired s t noReg (s.pc.toNat + 1) [])

/-- 41_control_transfer.md R123: `jnz X Y`, with its frame. -/
def Obligations.JnzCompletes : Prop :=
  ∀ (x y : Operand) (s : State), (Instr.jnz x y).wf = true → s.pc.toNat < Config.maxLen →
    ∃ t, exec (.jnz x y) s = .next t ∧
      (s.value x ≠ 0 → Retired s t noReg (applyDisp s.pc.toNat (s.value y).toInt) []) ∧
      (s.value x = 0 → Retired s t noReg (s.pc.toNat + 1) [])

/-- 41_control_transfer.md R120 and 10_state.md R26: an instruction that neither faults nor is held leaves `pc` at
`next_pointer(I, pc)`. -/
def Obligations.PcTakesTheNextPointer : Prop :=
  ∀ (i : Instr) (s t : State), i.wf = true → exec i s = .next t → t.fault = none → s.fault = none →
    (∀ rd, i = .rcv rd → s.portIn.rcvValid = true) →
    nextPointer s i = some t.pc.toNat

/-- 41_control_transfer.md R126: a taken jump with a zero offset leaves the whole state of a running core as it was. -/
def Obligations.ZeroDisplacementLoopsInPlace : Prop :=
  ∀ (x y : Operand) (s : State), (x.wf && y.wf) = true → s.value y = 0 → s.run = .running → s.Inv →
    (0 < (s.value x).toInt → exec (.jgz x y) s = .next s) ∧ (s.value x ≠ 0 → exec (.jnz x y) s = .next s)

/-- 41_control_transfer.md R127: a taken jump out of the Program halts with `pc` the target, or the sentinel when it leaves
backward. -/
def Obligations.JumpOutOfTheProgramHalts : Prop :=
  ∀ (x y : Operand) (s : State), (x.wf && y.wf) = true → s.pc.toNat < Config.maxLen → s.progLen.toNat ≤ Config.maxLen →
    0 < (s.value x).toInt →
    (0 ≤ (s.value y).toInt → (s.progLen.toNat : Int) ≤ s.pc.toNat + (s.value y).toInt →
      ∃ t, exec (.jgz x y) s = .next t ∧ exec (.jnz x y) s = .next t ∧ t.run = .halted ∧
        (t.pc.toNat : Int) = s.pc.toNat + (s.value y).toInt ∧ t.fault = s.fault) ∧
    ((s.value y).toInt < 0 → s.pc.toNat < (s.value y).toInt.natAbs →
      ∃ t, exec (.jgz x y) s = .next t ∧ exec (.jnz x y) s = .next t ∧ t.run = .halted ∧
        t.pc.toNat = 2 ^ 64 - 1 ∧ t.fault = s.fault)

/-- 93_implementation_defined.md U5 and log 10: where a taken jump's forward sum does not fit the pointer, which needs a pc
that is no address of a Program, the jump is refused by name and neither wraps nor saturates. -/
def Obligations.ForwardOverflowIsRefused : Prop :=
  ∀ (x y : Operand) (s : State), (x.wf && y.wf) = true → 0 < (s.value x).toInt →
    (2 : Int) ^ 64 ≤ s.pc.toNat + (s.value y).toInt →
    exec (.jgz x y) s = .refused .pointerOverflow ∧ exec (.jnz x y) s = .refused .pointerOverflow

/-! ### Driver hand-off -/

/-- 42_driver_handoff.md R141: `snd X` emits the value, with its frame. -/
def Obligations.SndCompletes : Prop :=
  ∀ (x : Operand) (s : State), (Instr.snd x).wf = true → s.pc.toNat < Config.maxLen →
    ∃ t, exec (.snd x) s = .next t ∧ Retired s t noReg (s.pc.toNat + 1) [.send (s.value x)]

/-- 42_driver_handoff.md R142: `rcv R` with a value on the port writes exactly that value and emits the event, with its
frame. The value is the driver's, any value. -/
def Obligations.RcvCompletes : Prop :=
  ∀ (rd : Reg) (s : State), (Instr.rcv rd).wf = true → s.portIn.rcvValid = true → s.pc.toNat < Config.maxLen →
    ∃ t, exec (.rcv rd) s = .next t ∧ t.readPort rd = s.portIn.rcvData ∧
      Retired s t (· = rd) (s.pc.toNat + 1) [.recv rd s.portIn.rcvData]

/-- 42_driver_handoff.md R143: while a running core is at a `rcv` and the driver supplies no value (and neither resets it nor
writes a register), nothing of the core changes at an edge; the request shows on `rcv_req` and `rcv_reg`. -/
def Obligations.RcvHoldsWithoutAValue : Prop :=
  ∀ (rd : Reg) (s : State), s.currentInstr? = some (.rcv rd) → s.run = .running → s.fault = none →
    s.portIn.rcvValid = false → s.portIn.rst = false → s.portIn.regWe = false →
    step s = .next s.endEdge ∧ s.portOut.rcvReq = true ∧ s.portOut.rcvReg = some rd

/-! ### Encoding -/

/-- 30_encoding.md R80: encoding and decoding are inverse, both ways, so legal words and instructions correspond one to one. -/
def Obligations.EncodeAndDecodeAreInverse : Prop :=
  (∀ i : Instr, i.wf = true → decodeWord (encodeWord i) = .instr i) ∧
    ∀ (w : InstrWord) (i : Instr), decodeWord w = .instr i → i.wf = true ∧ encodeWord i = w

/-- 30_encoding.md R78: which words are illegal and which are bad-register, in the bits of the word. -/
def Obligations.ReservedEncodings : Prop :=
  ∀ w : InstrWord,
    let op := (w.extractLsb' 132 4).toNat
    let am := w.getLsbD 131
    let bm := w.getLsbD 130
    let a := (w.extractLsb' 64 64).toNat
    let b := (w.extractLsb' 0 64).toNat
    let usesB := 2 ≤ op ∧ op ≤ 8
    (decodeWord w = .illegal ↔
      op = 0 ∨ 10 ≤ op ∨ w.extractLsb' 128 2 ≠ 0 ∨
      ((2 ≤ op ∧ op ≤ 6 ∨ op = 9) ∧ am = true) ∨
      ((op = 1 ∨ op = 9) ∧ (bm = true ∨ b ≠ 0)) ∨
      (am = false ∧ 32 ≤ a) ∨
      (usesB ∧ bm = false ∧ 32 ≤ b)) ∧
    (decodeWord w = .badRegister ↔
      decodeWord w ≠ .illegal ∧ ((am = false ∧ 26 ≤ a % 32) ∨ (usesB ∧ bm = false ∧ 26 ≤ b % 32)))

/-- 30_encoding.md R82: a word is legal exactly when it matches a row of the opcode table and meets its constraints; the row
is of the instruction's kind; the rows are pairwise disjoint. -/
def Obligations.OpcodeTableIsTheDecoder : Prop :=
  (∀ (w : InstrWord) (k : Kind), (∃ i, decodeWord w = .instr i ∧ i.kind = k) ↔
      ∃ row ∈ opcodeTable, row.kind = k ∧ row.covers w = true ∧ row.constraintsHold w = true) ∧
    opcodeTable.length = 21 ∧
    opcodeTable.Pairwise fun p q => ∀ w : InstrWord, ¬ (p.covers w = true ∧ q.covers w = true)

/-- The words of 30_encoding.md R81 decode to the instructions they stand for. -/
def Obligations.SpecWordsDecode : Prop :=
  decodeWord 0x2400000000000000000000000000000001 = .instr (.set 0 (.imm 1)) ∧
  decodeWord 0x3400000000000000000000000000000002 = .instr (.add 0 (.imm 2)) ∧
  decodeWord 0x5000000000000000000000000000000000 = .instr (.mul 0 (.reg 0)) ∧
  decodeWord 0x840000000000000000FFFFFFFFFFFFFFFF = .instr (.jnz (.reg 0) (.imm (-1))) ∧
  decodeWord 0x1800000000000000070000000000000000 = .instr (.snd (.imm 7)) ∧
  decodeWord 0x9000000000000000190000000000000000 = .instr (.rcv 25) ∧
  decodeWord 0x7C0000000000000001FFFFFFFFFFFFFFFE = .instr (.jgz (.imm 1) (.imm (-2)))

/-- 20_memory.md R43: the stored image of an instruction is 17 bytes, most significant first, at 17 times its address;
storing it changes no other byte, and the decoder reads it back from the bytes. That the image stays canonical is about the
model's own form of it (log 2). -/
def Obligations.StoredImageByteOrder : Prop :=
  ∀ (m : Memory) (a : Nat) (w : InstrWord), m.wf →
    (∀ k, k < 17 → (m.writeWord a w).read (17 * a + k) = w.extractLsb' (128 - 8 * k) 8) ∧
    (∀ q, q < 17 * a ∨ 17 * a + 17 ≤ q → (m.writeWord a w).read q = m.read q) ∧
    (m.writeWord a w).readWord a = w ∧ (m.writeWord a w).wf ∧
    ∀ rest, decodeBytes (bytesOfWord w ++ rest) = .decoded (decodeWord w) rest

/-! ### The text form -/

/-- 30_encoding.md R69: every instruction's canonical text decodes back to it; a line that decodes gives an instruction whose
canonical text decodes the same; and the other direction does not hold as text, by the rule's own example. -/
def Obligations.RenderThenDecodeLineIsTheIdentity : Prop :=
  (∀ i : Instr, i.wf = true → decodeLine (render i) = .ok i) ∧
    (∀ (line : Text) (i : Instr), decodeLine line = .ok i → i.wf = true ∧ decodeLine (render i) = decodeLine line) ∧
    ∃ i, decodeLine "  add a 007 ".toList = .ok i ∧ render i = "add a 7".toList

/-- The lines of 30_encoding.md R68 render as the spec says, and lines of 95_test_vectors.md V-T1 and V-T2 decode or are
refused as it says. -/
def Obligations.SpecLinesDecode : Prop :=
  render (.set 0 (.imm 1)) = "set a 1".toList ∧
  render (.jnz (.reg 0) (.imm (-1))) = "jnz a -1".toList ∧
  render (.rcv 25) = "rcv z".toList ∧
  render (.snd (.imm (BitVec.ofInt 64 Config.minInt))) = "snd -9223372036854775808".toList ∧
  decodeLine "  add a 007 ".toList = .ok (.add 0 (.imm 7)) ∧
  decodeLine "snd 5".toList = .ok (.snd (.imm 5)) ∧
  decodeLine "set a 9223372036854775808".toList = .error (.malformedInstruction "set a 9223372036854775808".toList) ∧
  decodeLine "set A 1".toList = .error (.malformedInstruction "set A 1".toList) ∧
  decodeLine "set a  1".toList = .error (.malformedInstruction "set a  1".toList)

/-- 30_encoding.md R65: a line that does not decode fails with `MalformedInstruction` carrying the raw line, and nothing else. -/
def Obligations.LineFailureCarriesTheRawLine : Prop :=
  ∀ line : Text, (∃ i, decodeLine line = .ok i) ∨ decodeLine line = .error (.malformedInstruction line)

/-- 30_encoding.md R70: a text whose lines all decode, no more of them than `MAXLEN`, loads; a text that loads gives its lines'
instructions in the source order, line `k` giving `Prog[k]`; and one line that fails fails the whole load, with the error of a
line that fails and no partial Program. -/
def Obligations.LoaderIsAllOrNothing : Prop :=
  (∀ t : Text, (∀ line ∈ textLines t, ∃ i, decodeLine line = .ok i) → (textLines t).length ≤ Config.maxLen →
      ∃ prog, loadText t = .ok prog) ∧
    (∀ (t : Text) (prog : List Instr), loadText t = .ok prog →
      prog.length = (textLines t).length ∧ prog.length ≤ Config.maxLen ∧
      ∀ (k : Nat) (line : Text), (textLines t)[k]? = some line → ∃ i, prog[k]? = some i ∧ decodeLine line = .ok i) ∧
    ∀ (t : Text) (line : Text) (e : LoadError), line ∈ textLines t → decodeLine line = .error e →
      (textLines t).length ≤ Config.maxLen →
      ∃ bad, bad ∈ textLines t ∧ decodeLine bad = .error (.malformedInstruction bad) ∧
        loadText t = .error (.malformedInstruction bad)

/-- 30_encoding.md R70 ("The text is UTF-8"): loading the UTF-8 bytes of a text is loading the text, and every byte string that
loads, or fails otherwise than as no UTF-8, is the UTF-8 of one text, loaded. UTF-8 itself and the error of other bytes are
the model's (log 14). -/
def Obligations.StoredTextLoadsAsItsCharacters : Prop :=
  (∀ t : Text, loadBytes (encodeUtf8 t) = loadText t) ∧
    ∀ bs : List Byte, loadBytes bs ≠ .error .malformedUtf8 → ∃ t, bs = encodeUtf8 t ∧ loadBytes bs = loadText t

/-- 70_reset_and_hazards.md R201 and 30_encoding.md R81: launching the image of a Program of well-formed instructions
within `MAXLEN` succeeds, gives a state with the reset values and the invariant, and lays instruction `k` at address `k`. -/
def Obligations.LaunchLaysTheProgramOut : Prop :=
  ∀ (prog : List Instr) (driver : List PortIn), (∀ i ∈ prog, i.wf = true) → prog.length ≤ Config.maxLen →
    ∃ s, launch (assemble prog) driver = some s ∧ s.Inv ∧ s.progLen.toNat = prog.length ∧ s.driver = driver ∧
      (∀ r, s.readPort r = 0) ∧ s.pc = 0 ∧ s.fault = none ∧ s.trace = [] ∧
      (s.run = .running ↔ prog ≠ []) ∧
      ∀ (k : Nat) (i : Instr), prog[k]? = some i → decodeWord (s.imem.readWord k) = .instr i

/-! ### The sequencer -/

/-- 43_sequencer.md R150 and R155: when the word at `pc` decodes to an instruction and the step is enabled, the step is `exec`
of that instruction, after which the edge's port values are used up. -/
def Obligations.StepRunsTheDecodedInstruction : Prop :=
  ∀ (s : State) (i : Instr), s.pc.toNat < s.progLen.toNat → decodeWord (s.imem.readWord s.pc.toNat) = .instr i →
    s.run = .running → s.fault = none → s.portIn.rst = false → s.portIn.go = true →
    ((∃ rd, i = .rcv rd) → s.portIn.rcvValid = true) →
    step s = mapNext State.endEdge (exec i s)

/-- 60_exceptions.md R172, R173 and R174: an enabled step whose word does not decode takes the fault the decoder names, and
writes nothing but the latch. -/
def Obligations.UndecodableWordFaults : Prop :=
  ∀ s : State, s.pc.toNat < s.progLen.toNat → s.run = .running → s.fault = none →
    s.portIn.rst = false → s.portIn.go = true →
    (decodeWord (s.imem.readWord s.pc.toNat) = .illegal →
      ∃ t, step s = .next t.endEdge ∧ FaultEntered s t .illegalInstruction) ∧
    (decodeWord (s.imem.readWord s.pc.toNat) = .badRegister →
      ∃ t, step s = .next t.endEdge ∧ FaultEntered s t .registerIndexOutOfRange)

/-- Log 9: an instruction term that names a register above 25, which the decoder never yields, takes the fault
`RegisterIndexOutOfRange` and writes nothing but the latch. The model's choice, after 60_exceptions.md R170. -/
def Obligations.IllFormedInstructionFaults : Prop :=
  ∀ (i : Instr) (s : State), i.wf = false →
    ∃ t, exec i s = .next t ∧ FaultEntered s t .registerIndexOutOfRange

/-- 43_sequencer.md R151: after an instruction that neither faults nor is held, the core is `Halted` when the new pc is the
sentinel or at least `L`, and `Running` otherwise. -/
def Obligations.RunStateFollowsTheNextPointer : Prop :=
  ∀ (i : Instr) (s t : State), exec i s = .next t → t.fault = none → s.fault = none →
    (∀ rd, i = .rcv rd → s.portIn.rcvValid = true) →
    (t.run = .halted ↔ t.pc.toNat = 2 ^ 64 - 1 ∨ s.progLen.toNat ≤ t.pc.toNat)

/-- 43_sequencer.md R155: at an edge without reset where the other conditions of a step all hold, the step is taken, after which
the edge's port values are used up; where one of them fails, and the driver writes no register, the state does not change
(beyond the port values used up). The driver's write is the exception R159 and 90_conflicts.md C11 make (log 12). -/
def Obligations.AStepIsTakenExactlyWhenEnabled : Prop :=
  ∀ s : State, s.portIn.rst = false →
    (s.run = .running → s.fault = none → s.portIn.go = true →
      ((∃ rd, s.currentInstr? = some (.rcv rd)) → s.portIn.rcvValid = true) →
      step s = mapNext State.endEdge s.takeStep) ∧
    (s.portIn.regWe = false →
      (s.run = .halted ∨ s.fault ≠ none ∨ s.portIn.go = false ∨
        ((∃ rd, s.currentInstr? = some (.rcv rd)) ∧ s.portIn.rcvValid = false)) →
      step s = .next s.endEdge)

/-- 43_sequencer.md R159 and 90_conflicts.md C11: at an edge without reset and without a step, the driver's write sets the
register it selects to the data, writes nothing at 26 to 31, and changes nothing else. -/
def Obligations.DriverWritesARegisterBetweenSteps : Prop :=
  ∀ s : State, s.portIn.rst = false → s.portIn.regWe = true → s.stepEnabled = false →
    ∃ t, step s = .next t.endEdge ∧
      (regOk s.portIn.regSel = true → t.readPort s.portIn.regSel = s.portIn.regWdata) ∧
      (regOk s.portIn.regSel = false → t.readPort s.portIn.regSel = 0) ∧
      SameRegsBut (· = s.portIn.regSel) s t ∧ t.pc = s.pc ∧ t.run = s.run ∧ t.fault = s.fault ∧ t.trace = s.trace ∧
      SameOutside s t

/-- 43_sequencer.md R153: `Halted` is left by reset only; while it lasts the pc, the fault latch and the trace stay, no
register changes but the one the driver itself writes, the exception R159 and 90_conflicts.md C11 make (log 12), and
`snd_valid` and `rcv_req` are 0. -/
def Obligations.OnlyResetLeavesHalted : Prop :=
  ∀ s t : State, s.run = .halted → step s = .next t → s.portIn.rst = false →
    t.run = .halted ∧ t.pc = s.pc ∧ t.fault = s.fault ∧ t.trace = s.trace ∧
      (∀ r, (s.portIn.regWe = true → r ≠ s.portIn.regSel) → t.readPort r = s.readPort r) ∧
      s.portOut.sndValid = false ∧ s.portOut.rcvReq = false

/-- 60_exceptions.md R174 and R178: a fault recorded is changed or cleared by reset only, and while it lasts the core is frozen:
pc, run state and trace stay, and no register changes but the one the driver itself writes, the exception
43_sequencer.md R159 and 90_conflicts.md C11 make (log 12). -/
def Obligations.OnlyResetClearsAFault : Prop :=
  ∀ (s t : State) (f : FaultRecord), s.fault = some f → step s = .next t → s.portIn.rst = false →
    t.fault = some f ∧ t.pc = s.pc ∧ t.run = s.run ∧ t.trace = s.trace ∧
      ∀ r, (s.portIn.regWe = true → r ≠ s.portIn.regSel) → t.readPort r = s.readPort r

/-- 70_reset_and_hazards.md R204 and 42_driver_handoff.md R145 (c): at an edge of a run under the driver contract whose first step
was taken, a register changes only in a step, and only as the destination of the instruction at the pc. -/
def Obligations.OnlyInstructionsWriteRegistersInMidRun : Prop :=
  ∀ (s t : State) (r : Reg), s.keepsContract true → step s = .next t → t.readPort r ≠ s.readPort r →
    s.stepEnabled = true ∧ ∃ i, s.currentInstr? = some i ∧ Instr.dest? i = some r

/-- 43_sequencer.md R153, R156 and 60_exceptions.md R174: in a run under the driver contract, a core that has ended or failed keeps
every register, the pc, the run state, the fault latch and the trace through any number of further edges. -/
def Obligations.AnEndedRunStaysAsItIs : Prop :=
  ∀ (k : Nat) (s t : State), RunTo true k s t → (s.isFinal = true ∨ s.isFailed = true) →
    (∀ r, t.readPort r = s.readPort r) ∧ t.pc = s.pc ∧ t.run = s.run ∧ t.fault = s.fault ∧ t.trace = s.trace

/-- 60_exceptions.md R187: at an edge where a fault comes to be recorded, nothing but the latch changes, and it holds the pc of the
faulting instruction. -/
def Obligations.FaultsArePrecise : Prop :=
  ∀ s t : State, step s = .next t → s.fault = none → t.fault ≠ none →
    (∃ c, t.fault = some { cause := c, fpc := s.pc }) ∧ t.pc = s.pc ∧ t.run = s.run ∧ t.trace = s.trace ∧
      ∀ r, t.readPort r = s.readPort r

/-- 20_memory.md R51: no step changes the Program or its length. That a reset edge keeps them too is the model's (log 16). -/
def Obligations.NoStepChangesTheProgram : Prop :=
  ∀ s t : State, step s = .next t → t.imem = s.imem ∧ t.progLen = s.progLen

/-- 42_driver_handoff.md R146 and R144: without reset, an edge appends to the trace the `Send` shown on `snd_valid` and `snd_data`
when there is one; otherwise it appends at most the `Recv` of the value the driver supplied to the register on `rcv_reg`. -/
def Obligations.TraceRecordsTheHandOffs : Prop :=
  ∀ s t : State, s.portIn.rst = false → step s = .next t →
    (∀ v, s.portOut.sndData = some v → t.trace = s.trace ++ [.send v]) ∧
    (s.portOut.sndValid = false →
      t.trace = s.trace ∨
        ∃ rd, s.portOut.rcvReg = some rd ∧ s.portIn.rcvValid = true ∧ t.trace = s.trace ++ [.recv rd s.portIn.rcvData])

/-- 42_driver_handoff.md R144: `rcv_valid` and `rcv_data` are ignored when `rcv_req = 0`: two cores alike but for these two
inputs go alike through the edge, stops included. -/
def Obligations.ReceivePortIgnoredUnlessRequested : Prop :=
  ∀ (s : State) (p : PortIn) (rest : List PortIn) (valid : Bool) (data : Word),
    s.driver = p :: rest → s.portOut.rcvReq = false →
    step { s with driver := { p with rcvValid := valid, rcvData := data } :: rest } = step s

/-- 43_sequencer.md R158 and 60_exceptions.md R175: the status outputs show the run state, the pc and the fault latch. -/
def Obligations.StatusOutputsShowTheState : Prop :=
  ∀ s : State,
    (s.portOut.halted = true ↔ s.run = .halted) ∧ s.portOut.pcOut = s.pc ∧
    (s.fault = none → s.portOut.faultCause = 0 ∧ s.portOut.faultPc = 0) ∧
    ∀ f, s.fault = some f → s.portOut.faultPc = f.fpc ∧ s.portOut.faultCause ≠ 0 ∧
      (f.cause = .illegalInstruction ↔ s.portOut.faultCause = 1) ∧
      (f.cause = .registerIndexOutOfRange ↔ s.portOut.faultCause = 2) ∧
      (f.cause = .divisionByZero ↔ s.portOut.faultCause = 3)

/-- 43_sequencer.md R159 and 42_driver_handoff.md R145 (a): the fetch address is the pc; the read port shows the selected register,
and 0 for 26 to 31; and reading changes nothing: with no register write asked for, `reg_sel` and `reg_wdata` make no
difference to the edge. -/
def Obligations.ReadPortShowsTheRegisterAndChangesNothing : Prop :=
  ∀ s : State, s.portOut.imemAddr = s.pc ∧
    (∀ v, s.getReg? s.portIn.regSel = some v → s.portOut.regRdata = v) ∧
    (26 ≤ s.portIn.regSel.toNat → s.portOut.regRdata = 0) ∧
    ∀ (p : PortIn) (rest : List PortIn) (sel : Reg) (data : Word), s.driver = p :: rest → p.regWe = false →
      step { s with driver := { p with regSel := sel, regWdata := data } :: rest } = step s

/-- 40_register_alu.md R110: while an instruction is at the pc of a core that is not `Halted`, `handled` is 1 for the five kinds the
register file applies, whatever the operands, and 0 for the other four, unless the coming edge is a step that faults; when it
is 1 nothing is presented to the driver. -/
def Obligations.HandledTellsWhoExecutes : Prop :=
  ∀ (s : State) (i : Instr), s.currentInstr? = some i → s.run = .running →
    (i.kind ∈ [Kind.set, .add, .sub, .mul] → s.portOut.handled = some true) ∧
    (∀ rd x, i = .mod rd x → (s.stepEnabled = false ∨ s.value x ≠ 0) → s.portOut.handled = some true) ∧
    (i.kind ∈ [Kind.snd, .jgz, .jnz, .rcv] → s.portOut.handled = some false) ∧
    (s.portOut.handled = some true → s.portOut.sndValid = false ∧ s.portOut.rcvReq = false)

/-- Log 11, after 20_memory.md R40: a core that is to execute at an address that holds nothing stops the machine by name. No
run reaches such a state. -/
def Obligations.FetchOutsideTheProgramStops : Prop :=
  ∀ s : State, s.progLen.toNat ≤ s.pc.toNat → s.run = .running → s.fault = none →
    s.portIn.rst = false → s.portIn.go = true → step s = .fault .fetchOutsideProgram

/-! ### The invariant -/

/-- 10_state.md R36 at the state after reset. -/
def Obligations.InvariantHoldsAtReset : Prop := State.reset.Inv

/-- 10_state.md R36: every step, reset and driver writes included, keeps the invariant, from every state that has it. -/
def Obligations.EveryStepKeepsTheInvariant : Prop :=
  ∀ s t : State, s.Inv → step s = .next t → t.Inv

/-- From every state that has the invariant a step answers a next state: no fetch outside the Program, no pointer overflow,
whatever the Program's words and whatever the driver does (10_state.md R36, 43_sequencer.md R154, 41_control_transfer.md R121). -/
def Obligations.StepNeverStopsUnderTheInvariant : Prop :=
  ∀ s : State, s.Inv → ∃ t, step s = .next t

/-- The host's placing of a word (log 7): whatever the state, the very next step runs exactly that word's instruction. -/
def Obligations.PlacedWordIsTheNextToRun : Prop :=
  ∀ (s : State) (w : Nat) (i : Instr), s.imem.wf → decodeTableWord 136 w = some i →
    step (s.withFetchWord 136 w) = mapNext State.endEdge (exec i (s.withFetchWord 136 w)) ∧
      ∃ t, step (s.withFetchWord 136 w) = .next t
end

