-- ==== Sys2Proof/Laws/Encoding.lean ====
section
/-! SUPPORT. The fields of a word and the word of fields are inverse, and the payload of an operand decodes to it. -/

namespace Sys2Proof

section Fields
variable (f : Fields)

@[simp] theorem splitWord_joinWord_b : (splitWord (joinWord f)).b = f.b := by
  simp only [splitWord, joinWord]
  rw [BitVec.extractLsb'_append_eq_of_add_le (by omega)]
  exact BitVec.extractLsb'_eq_self
@[simp] theorem splitWord_joinWord_a : (splitWord (joinWord f)).a = f.a := by
  simp only [splitWord, joinWord]
  ext i hi
  simp only [BitVec.getElem_extractLsb', BitVec.getLsbD_append]
  rw [if_neg (by omega), if_pos (by omega), show 64 + i - 64 = i by omega, BitVec.getLsbD_eq_getElem hi]
@[simp] theorem splitWord_joinWord_rsv : (splitWord (joinWord f)).rsv = f.rsv := by
  simp only [splitWord, joinWord]
  ext i hi
  simp only [BitVec.getElem_extractLsb', BitVec.getLsbD_append]
  rw [if_neg (by omega), if_neg (by omega), if_pos (by omega), show 128 + i - 64 - 64 = i by omega,
    BitVec.getLsbD_eq_getElem hi]
@[simp] theorem splitWord_joinWord_op : (splitWord (joinWord f)).op = f.op := by
  simp only [splitWord, joinWord]
  ext i hi
  simp only [BitVec.getElem_extractLsb', BitVec.getLsbD_append]
  rw [if_neg (by omega), if_neg (by omega), if_neg (by omega), if_neg (by omega), if_neg (by omega),
    show 132 + i - 64 - 64 - 2 - 1 - 1 = i by omega, BitVec.getLsbD_eq_getElem hi]
@[simp] theorem splitWord_joinWord_am : (splitWord (joinWord f)).am = f.am := by
  simp only [splitWord, joinWord, BitVec.getLsbD_append, BitVec.getLsbD_ofBool]
  simp
@[simp] theorem splitWord_joinWord_bm : (splitWord (joinWord f)).bm = f.bm := by
  simp only [splitWord, joinWord, BitVec.getLsbD_append, BitVec.getLsbD_ofBool]
  simp

/-- The fields of the word with given fields are those fields. -/
theorem splitWord_joinWord : splitWord (joinWord f) = f := by
  have h (g h : Fields) (h1 : g.op = h.op) (h2 : g.am = h.am) (h3 : g.bm = h.bm) (h4 : g.rsv = h.rsv)
      (h5 : g.a = h.a) (h6 : g.b = h.b) : g = h := by
    cases g; cases h; simp_all
  exact h _ _ (by simp) (by simp) (by simp) (by simp) (by simp) (by simp)

end Fields

/-- A word is the word of its fields. -/
theorem joinWord_splitWord (w : InstrWord) : joinWord (splitWord w) = w := by
  apply BitVec.eq_of_getLsbD_eq
  intro i hi
  have key (n : Nat) (a b : Nat) (hb : a + b = i) (hn : b < n) : (decide (b < n) && w.getLsbD (a + b)) = w.getLsbD i := by
    rw [decide_eq_true hn, Bool.true_and, hb]
  simp only [splitWord, joinWord, BitVec.getLsbD_append, BitVec.getLsbD_extractLsb', BitVec.getLsbD_ofBool]
  by_cases h0 : i < 64
  · rw [if_pos h0]; exact key 64 0 i (by omega) h0
  by_cases h1 : i < 128
  · rw [if_neg h0, if_pos (by omega)]; exact key 64 64 (i - 64) (by omega) (by omega)
  by_cases h2 : i < 130
  · rw [if_neg h0, if_neg (by omega), if_pos (by omega)]
    exact key 2 128 (i - 64 - 64) (by omega) (by omega)
  by_cases h3 : i = 130
  · subst h3; simp
  by_cases h4 : i = 131
  · subst h4; simp
  rw [if_neg h0, if_neg (by omega), if_neg (by omega), if_neg (by omega), if_neg (by omega)]
  exact key 4 132 (i - 64 - 64 - 2 - 1 - 1) (by omega) (by omega)

/-! ### Payloads (30_encoding.md R75) -/

theorem payloadReg_setWidth (r : Reg) : payloadReg (r.setWidth 64) = r := by
  ext i hi
  simp only [payloadReg, BitVec.getElem_extractLsb', BitVec.getLsbD_setWidth, Nat.zero_add]
  rw [decide_eq_true (by omega), Bool.true_and, BitVec.getLsbD_eq_getElem hi]

theorem payloadHigh_setWidth (r : Reg) : payloadHigh (r.setWidth 64) = 0 := by
  ext i hi
  simp [payloadHigh]

/-- A payload whose high bits are zero is its register index, zero-extended. -/
theorem setWidth_payloadReg {p : Word} (h : payloadHigh p = 0) : (payloadReg p).setWidth 64 = p := by
  ext i hi
  simp only [payloadReg, BitVec.getElem_setWidth, BitVec.getLsbD_extractLsb', Nat.zero_add]
  by_cases h5 : i < 5
  · simp [h5, hi]
  · have hb := congrArg (fun v => v.getLsbD (i - 5)) h
    simp only [payloadHigh, BitVec.getLsbD_extractLsb'] at hb
    rw [decide_eq_true (by omega), Bool.true_and, show 5 + (i - 5) = i by omega, BitVec.getLsbD_eq_getElem hi] at hb
    simp [h5, hb]

theorem operandOf_operandPayload (x : Operand) : operandOf (operandPayload x).1 (operandPayload x).2 = x := by
  cases x with
  | reg r => simp [operandOf, operandPayload, payloadReg_setWidth]
  | imm n => rfl

/-- The opcode map is inverse to the numbering (R74). -/
@[simp] theorem kindOfOp_op (k : Kind) : kindOfOp k.op = some k := by cases k <;> rfl

theorem op_of_kindOfOp {op : BitVec 4} {k : Kind} (h : kindOfOp op = some k) : k.op = op := by
  revert op k; decide

end Sys2Proof
end

