-- ==== Sys2Proof/Laws/State.lean ====
section
/-! SUPPORT. One lemma per field per update of State, and the register file's read and write laws. -/

namespace Sys2Proof.Machine

section Fields
variable (s : State) (r : Reg) (v : Word) (c : Cause) (e : Event)

@[simp] theorem State.setReg_pc : (s.setReg r v).pc = s.pc := rfl
@[simp] theorem State.setReg_run : (s.setReg r v).run = s.run := rfl
@[simp] theorem State.setReg_fault : (s.setReg r v).fault = s.fault := rfl
@[simp] theorem State.setReg_progLen : (s.setReg r v).progLen = s.progLen := rfl
@[simp] theorem State.setReg_imem : (s.setReg r v).imem = s.imem := rfl
@[simp] theorem State.setReg_driver : (s.setReg r v).driver = s.driver := rfl
@[simp] theorem State.setReg_trace : (s.setReg r v).trace = s.trace := rfl

@[simp] theorem State.emit_regs : (s.emit e).regs = s.regs := rfl
@[simp] theorem State.emit_pc : (s.emit e).pc = s.pc := rfl
@[simp] theorem State.emit_run : (s.emit e).run = s.run := rfl
@[simp] theorem State.emit_fault : (s.emit e).fault = s.fault := rfl
@[simp] theorem State.emit_progLen : (s.emit e).progLen = s.progLen := rfl
@[simp] theorem State.emit_imem : (s.emit e).imem = s.imem := rfl
@[simp] theorem State.emit_driver : (s.emit e).driver = s.driver := rfl
@[simp] theorem State.emit_trace : (s.emit e).trace = s.trace ++ [e] := rfl

@[simp] theorem State.raise_regs : (s.raise c).regs = s.regs := rfl
@[simp] theorem State.raise_pc : (s.raise c).pc = s.pc := rfl
@[simp] theorem State.raise_run : (s.raise c).run = s.run := rfl
@[simp] theorem State.raise_fault : (s.raise c).fault = some { cause := c, fpc := s.pc } := rfl
@[simp] theorem State.raise_progLen : (s.raise c).progLen = s.progLen := rfl
@[simp] theorem State.raise_imem : (s.raise c).imem = s.imem := rfl
@[simp] theorem State.raise_driver : (s.raise c).driver = s.driver := rfl
@[simp] theorem State.raise_trace : (s.raise c).trace = s.trace := rfl

@[simp] theorem State.applyReset_regs : s.applyReset.regs = Vector.replicate 26 0 := rfl
@[simp] theorem State.applyReset_pc : s.applyReset.pc = 0 := rfl
@[simp] theorem State.applyReset_run :
    s.applyReset.run = if s.progLen = 0 then .halted else .running := rfl
@[simp] theorem State.applyReset_fault : s.applyReset.fault = none := rfl
@[simp] theorem State.applyReset_progLen : s.applyReset.progLen = s.progLen := rfl
@[simp] theorem State.applyReset_imem : s.applyReset.imem = s.imem := rfl
@[simp] theorem State.applyReset_driver : s.applyReset.driver = s.driver := rfl
@[simp] theorem State.applyReset_trace : s.applyReset.trace = [] := rfl

@[simp] theorem State.endEdge_regs : s.endEdge.regs = s.regs := rfl
@[simp] theorem State.endEdge_pc : s.endEdge.pc = s.pc := rfl
@[simp] theorem State.endEdge_run : s.endEdge.run = s.run := rfl
@[simp] theorem State.endEdge_fault : s.endEdge.fault = s.fault := rfl
@[simp] theorem State.endEdge_progLen : s.endEdge.progLen = s.progLen := rfl
@[simp] theorem State.endEdge_imem : s.endEdge.imem = s.imem := rfl
@[simp] theorem State.endEdge_driver : s.endEdge.driver = s.driver.tail := rfl
@[simp] theorem State.endEdge_trace : s.endEdge.trace = s.trace := rfl

end Fields

/-! ### The driver's register write -/

@[simp] theorem State.driverWrite_pc (s : State) : s.driverWrite.pc = s.pc := by
  unfold State.driverWrite; split <;> rfl
@[simp] theorem State.driverWrite_run (s : State) : s.driverWrite.run = s.run := by
  unfold State.driverWrite; split <;> rfl
@[simp] theorem State.driverWrite_fault (s : State) : s.driverWrite.fault = s.fault := by
  unfold State.driverWrite; split <;> rfl
@[simp] theorem State.driverWrite_progLen (s : State) : s.driverWrite.progLen = s.progLen := by
  unfold State.driverWrite; split <;> rfl
@[simp] theorem State.driverWrite_imem (s : State) : s.driverWrite.imem = s.imem := by
  unfold State.driverWrite; split <;> rfl
@[simp] theorem State.driverWrite_driver (s : State) : s.driverWrite.driver = s.driver := by
  unfold State.driverWrite; split <;> rfl
@[simp] theorem State.driverWrite_trace (s : State) : s.driverWrite.trace = s.trace := by
  unfold State.driverWrite; split <;> rfl

theorem State.driverWrite_of_not_we {s : State} (h : s.portIn.regWe = false) : s.driverWrite = s := by
  simp [State.driverWrite, h]

/-! ### Registers -/

theorem regOk_iff {r : Reg} : regOk r = true ↔ r.toNat < 26 := by simp [regOk]

/-- A register that exists holds a value. -/
theorem State.getReg?_of_regOk {s : State} {r : Reg} (h : regOk r = true) :
    s.getReg? r = some (s.readPort r) := by
  have hr := regOk_iff.1 h
  simp [State.readPort, State.getReg?, hr]

/-- There is nothing at an index above 25. -/
theorem State.getReg?_of_not_regOk {s : State} {r : Reg} (h : regOk r = false) : s.getReg? r = none := by
  have hr : ¬ r.toNat < 26 := fun hlt => by simp [regOk_iff.2 hlt] at h
  simp [State.getReg?]; omega

/-- Writing a register that exists and reading any register field. -/
theorem State.getReg?_setReg (s : State) (r q : Reg) (v : Word) :
    (s.setReg r v).getReg? q = if r = q ∧ regOk r = true then some v else s.getReg? q := by
  simp only [State.getReg?, State.setReg, Vector.getElem?_setIfInBounds, regOk_iff]
  by_cases hq : r = q
  · subst hq; by_cases hr : r.toNat < 26
    · simp [hr]
    · simp only [hr, and_false, if_false, if_true]
      rw [Vector.getElem?_eq_none (by omega)]
  · have : r.toNat ≠ q.toNat := fun he => hq (BitVec.eq_of_toNat_eq he)
    simp [hq, this]

theorem State.readPort_setReg_self (s : State) {r : Reg} (h : regOk r = true) (v : Word) :
    (s.setReg r v).readPort r = v := by
  simp [State.readPort, State.getReg?_setReg, h]

theorem State.readPort_setReg_ne (s : State) {r q : Reg} (h : q ≠ r) (v : Word) :
    (s.setReg r v).readPort q = s.readPort q := by
  simp [State.readPort, State.getReg?_setReg, Ne.symm h]

/-- The driver's write leaves every register it does not select as it was. -/
theorem State.readPort_driverWrite {s : State} {r : Reg} (h : s.portIn.regWe = true → r ≠ s.portIn.regSel) :
    s.driverWrite.readPort r = s.readPort r := by
  unfold State.driverWrite
  split
  · next hw => exact s.readPort_setReg_ne (h hw) _
  · rfl

/-- Nothing is written at an index above 25. -/
theorem State.setReg_of_not_regOk (s : State) {r : Reg} (h : regOk r = false) (v : Word) : s.setReg r v = s := by
  have hr : ¬ r.toNat < 26 := fun hlt => by simp [regOk_iff.2 hlt] at h
  simp only [State.setReg]
  rw [Vector.setIfInBounds_eq_of_size_le (by omega)]

@[simp] theorem State.readPort_emit (s : State) (e : Event) (r : Reg) : (s.emit e).readPort r = s.readPort r := rfl
@[simp] theorem State.readPort_raise (s : State) (c : Cause) (r : Reg) : (s.raise c).readPort r = s.readPort r := rfl
@[simp] theorem State.readPort_endEdge (s : State) (r : Reg) : s.endEdge.readPort r = s.readPort r := rfl

theorem State.readPort_applyReset (s : State) (r : Reg) : s.applyReset.readPort r = 0 := by
  simp only [State.readPort, State.getReg?, State.applyReset_regs]
  by_cases hr : r.toNat < 26
  · simp [hr]
  · rw [Vector.getElem?_eq_none (by omega)]; rfl

end Sys2Proof.Machine
end

