-- ==== Sys2Proof/Laws/Memory.lean ====
section
/-! SUPPORT. The laws of the stored image: a byte written reads back, every other byte reads as before, and every operation
keeps the canonical form. -/

namespace Sys2Proof.Machine

/-- No entry below every address of the rest: reading there gives the unlisted byte. -/
theorem Memory.read_of_forall_lt {m : Memory} {a : Nat} (h : ∀ c ∈ m, a < c.1) : m.read a = Memory.unlisted := by
  induction m with
  | nil => rfl
  | cons c m ih =>
    have hc : a < c.1 := h c (by simp)
    simp only [Memory.read]
    rw [if_neg (by omega)]
    exact ih fun d hd => h d (by simp [hd])

theorem Memory.wf_nil : Memory.wf [] := ⟨List.Pairwise.nil, fun _ h => absurd h (by simp)⟩

theorem Memory.wf_cons {c : Host.Cell} {m : Memory} :
    Memory.wf (c :: m) ↔ (∀ d ∈ m, c.1 < d.1) ∧ c.2 ≠ Memory.unlisted ∧ Memory.wf m := by
  simp only [Memory.wf, List.pairwise_cons, List.forall_mem_cons]
  tauto

/-- The addresses of a written image are the old ones and perhaps the written one. -/
theorem Memory.mem_write {m : Memory} {a : Nat} {v : Byte} {c : Host.Cell} (h : c ∈ m.write a v) :
    c = (a, v) ∨ c ∈ m := by
  induction m with
  | nil =>
    simp only [Memory.write] at h
    split at h
    · simp at h
    · simp at h; exact .inl h
  | cons d m ih =>
    simp only [Memory.write] at h
    split at h
    · split at h
      · exact .inr h
      · simpa using h
    · split at h
      · split at h
        · exact .inr (by simp [h])
        · simp only [List.mem_cons] at h ⊢; tauto
      · simp only [List.mem_cons] at h ⊢
        rcases h with h | h
        · exact .inr (.inl h)
        · rcases ih h with h | h <;> tauto

/-- Writing keeps the canonical form. -/
theorem Memory.wf_write {m : Memory} (h : m.wf) (a : Nat) (v : Byte) : (m.write a v).wf := by
  induction m with
  | nil => simp only [Memory.write]; split <;> simp_all [Memory.wf]
  | cons d m ih =>
    obtain ⟨hlt, hne, hm⟩ := Memory.wf_cons.1 h
    simp only [Memory.write]
    split
    · split
      · exact h
      · next had hv =>
        refine Memory.wf_cons.2 ⟨fun c hc => ?_, hv, h⟩
        rcases List.mem_cons.1 hc with rfl | hc
        · exact had
        · exact Nat.lt_trans had (hlt c hc)
    · split
      · next had =>
        subst had
        split
        · exact hm
        · next hv => exact Memory.wf_cons.2 ⟨hlt, hv, hm⟩
      · next h1 h2 =>
        refine Memory.wf_cons.2 ⟨fun c hc => ?_, hne, ih hm⟩
        rcases Memory.mem_write hc with rfl | hc
        · show d.1 < a; omega
        · exact hlt c hc

/-- Read after write. -/
theorem Memory.read_write {m : Memory} (h : m.wf) (a q : Nat) (v : Byte) :
    (m.write a v).read q = if q = a then v else m.read q := by
  induction m with
  | nil =>
    simp only [Memory.write]
    split
    · next hv => simp [Memory.read, hv]
    · simp only [Memory.read]; grind
  | cons d m ih =>
    obtain ⟨hlt, hne, hm⟩ := Memory.wf_cons.1 h
    have hnone : ∀ p, p ≤ d.1 → Memory.read m p = Memory.unlisted := fun p hp =>
      Memory.read_of_forall_lt fun c hc => Nat.lt_of_le_of_lt hp (hlt c hc)
    simp only [Memory.write]
    split
    · next had =>
      split
      · next hv =>
        by_cases hq : q = a
        · subst hq
          rw [if_pos rfl, Memory.read, if_neg (by omega), hnone q (by omega), hv]
        · rw [if_neg hq]
      · simp only [Memory.read]; grind
    · split
      · next had =>
        subst had
        split
        · next hv =>
          simp only [Memory.read]
          by_cases hq : q = d.1
          · rw [if_pos hq, hq, hnone d.1 (by omega), hv]
          · rw [if_neg hq, if_neg (fun h => hq h.symm)]
        · simp only [Memory.read]; grind
      · simp only [Memory.read, ih hm]; grind

theorem Memory.wf_writeBytes {m : Memory} (h : m.wf) (a : Nat) (bs : List Byte) : (m.writeBytes a bs).wf := by
  induction bs generalizing m a with
  | nil => exact h
  | cons b bs ih => exact ih (Memory.wf_write h a b) (a + 1)

/-- Reading after storing bytes: inside the stored range the byte stored there, outside it the old byte. -/
theorem Memory.read_writeBytes {m : Memory} (h : m.wf) (a q : Nat) (bs : List Byte) :
    (m.writeBytes a bs).read q = if a ≤ q ∧ q < a + bs.length then bs[q - a]?.getD 0 else m.read q := by
  induction bs generalizing m a with
  | nil =>
    have : ¬ (a ≤ q ∧ q < a + 0) := by omega
    simp only [Memory.writeBytes, List.length_nil, if_neg this]
  | cons b bs ih =>
    simp only [Memory.writeBytes, ih (Memory.wf_write h a b), Memory.read_write h, List.length_cons]
    by_cases hq : q = a
    · subst hq; simp
    · by_cases hin : a + 1 ≤ q ∧ q < a + 1 + bs.length
      · obtain ⟨k, rfl⟩ : ∃ k, q = a + (k + 1) := ⟨q - a - 1, by omega⟩
        have h1 : a + (k + 1) - (a + 1) = k := by omega
        have h2 : a + (k + 1) - a = k + 1 := by omega
        rw [if_pos hin, if_pos (by omega), h1, h2, List.getElem?_cons_succ]
      · rw [if_neg hin, if_neg hq, if_neg (by omega)]

/-! ### Bytes and words -/

@[simp] theorem bytesOfWord_length (w : InstrWord) : (bytesOfWord w).length = 17 := by simp [bytesOfWord]

theorem bytesOfWord_getElem? (w : InstrWord) {k : Nat} (h : k < 17) :
    (bytesOfWord w)[k]? = some (w.extractLsb' (128 - 8 * k) 8) := by
  simp [bytesOfWord, h]

/-- The big-endian digits of a number spell it, modulo what they can hold. -/
theorem natOfBytes_digits (x n : Nat) :
    ((List.range n).map fun k => x / 256 ^ (n - 1 - k) % 256).foldl (fun acc b => acc * 256 + b) 0 = x % 256 ^ n := by
  induction n generalizing x with
  | zero => simp [Nat.mod_one]
  | succ n ih =>
    rw [List.range_succ, List.map_append, List.foldl_append]
    have hmap : ((List.range n).map fun k => x / 256 ^ (n + 1 - 1 - k) % 256)
        = (List.range n).map fun k => x / 256 / 256 ^ (n - 1 - k) % 256 := by
      apply List.map_congr_left
      intro k hk
      have hk : k < n := List.mem_range.1 hk
      rw [Nat.div_div_eq_div_mul, ← Nat.pow_succ', show (n - 1 - k).succ = n + 1 - 1 - k by omega]
    rw [hmap, ih]
    simp only [List.map_cons, List.map_nil, List.foldl_cons, List.foldl_nil, Nat.add_sub_cancel, Nat.sub_self,
      Nat.pow_zero, Nat.div_one]
    rw [Nat.pow_succ', Nat.mod_mul]
    omega

/-- The stored bytes of a word spell the word. -/
theorem wordOfBytes_bytesOfWord (w : InstrWord) : wordOfBytes (bytesOfWord w) = w := by
  have h := natOfBytes_digits w.toNat 17
  have hb : natOfBytes (bytesOfWord w)
      = ((List.range 17).map fun k => w.toNat / 256 ^ (17 - 1 - k) % 256).foldl (fun acc b => acc * 256 + b) 0 := by
    simp only [natOfBytes, bytesOfWord, List.foldl_map]
    congr 1
    funext acc k
    simp only [BitVec.extractLsb'_toNat, Nat.shiftRight_eq_div_pow]
    congr 2
    rw [show (256 : Nat) = 2 ^ 8 by rfl, ← Nat.pow_mul, show 8 * (17 - 1 - k) = 128 - 8 * k by omega]
  apply BitVec.eq_of_toNat_eq
  rw [wordOfBytes, BitVec.toNat_ofNat, hb, h]
  have := w.isLt
  omega

theorem Memory.wf_writeWord {m : Memory} (h : m.wf) (a : Nat) (w : InstrWord) : (m.writeWord a w).wf :=
  Memory.wf_writeBytes h _ _

theorem Memory.wf_writeWords {m : Memory} (h : m.wf) (a : Nat) (ws : List InstrWord) : (m.writeWords a ws).wf := by
  induction ws generalizing m a with
  | nil => exact h
  | cons w ws ih => exact ih (Memory.wf_writeWord h a w) (a + 1)

/-- A stored word's byte, most significant first, or the old byte outside it. -/
theorem Memory.read_writeWord {m : Memory} (h : m.wf) (a q : Nat) (w : InstrWord) :
    (m.writeWord a w).read q =
      if 17 * a ≤ q ∧ q < 17 * a + 17 then w.extractLsb' (128 - 8 * (q - 17 * a)) 8 else m.read q := by
  rw [Memory.writeWord, Memory.read_writeBytes h]
  simp only [bytesOfWord_length]
  split
  · next hq => rw [bytesOfWord_getElem? w (by omega)]; rfl
  · rfl

/-- The word an image holds, from its bytes. -/
theorem Memory.readWord_congr {m m' : Memory} {a a' : Nat}
    (h : ∀ k, k < 17 → m.read (17 * a + k) = m'.read (17 * a' + k)) : m.readWord a = m'.readWord a' := by
  rw [Memory.readWord, Memory.readWord]
  congr 1
  exact List.map_congr_left fun k hk => h k (List.mem_range.1 hk)

/-- An image whose bytes at an address are a word's holds that word. -/
theorem Memory.readWord_of_bytes {m : Memory} {a : Nat} {w : InstrWord}
    (h : ∀ k, k < 17 → m.read (17 * a + k) = w.extractLsb' (128 - 8 * k) 8) : m.readWord a = w := by
  rw [Memory.readWord]
  refine Eq.trans ?_ (wordOfBytes_bytesOfWord w)
  rw [bytesOfWord]
  congr 1
  exact List.map_congr_left fun k hk => h k (List.mem_range.1 hk)

/-- A stored word reads back, and every other instruction address reads as before. -/
theorem Memory.readWord_writeWord {m : Memory} (h : m.wf) (a q : Nat) (w : InstrWord) :
    (m.writeWord a w).readWord q = if q = a then w else m.readWord q := by
  split
  · next hq =>
    subst hq
    refine Memory.readWord_of_bytes fun k hk => ?_
    rw [Memory.read_writeWord h, if_pos (by omega), show 17 * q + k - 17 * q = k by omega]
  · next hq =>
    refine Memory.readWord_congr fun k hk => ?_
    rw [Memory.read_writeWord h, if_neg (by omega)]

/-- Storing a Program: each of its words reads back at its address. -/
theorem Memory.readWord_writeWords {m : Memory} (h : m.wf) (a q : Nat) (ws : List InstrWord) :
    (m.writeWords a ws).readWord q =
      if a ≤ q ∧ q < a + ws.length then ws[q - a]?.getD 0 else m.readWord q := by
  induction ws generalizing m a with
  | nil =>
    have : ¬ (a ≤ q ∧ q < a + 0) := by omega
    simp only [Memory.writeWords, List.length_nil, if_neg this]
  | cons w ws ih =>
    simp only [Memory.writeWords, ih (Memory.wf_writeWord h a w), Memory.readWord_writeWord h, List.length_cons]
    by_cases hq : q = a
    · subst hq; simp
    · by_cases hin : a + 1 ≤ q ∧ q < a + 1 + ws.length
      · obtain ⟨k, rfl⟩ : ∃ k, q = a + (k + 1) := ⟨q - a - 1, by omega⟩
        have h1 : a + (k + 1) - (a + 1) = k := by omega
        have h2 : a + (k + 1) - a = k + 1 := by omega
        rw [if_pos hin, if_pos (by omega), h1, h2, List.getElem?_cons_succ]
      · rw [if_neg hin, if_neg hq, if_neg (by omega)]

end Sys2Proof.Machine
end

