-- ==== Sys2Proof/Laws/Ops.lean ====
section
/-! SUPPORT. One lemma per shared operation that says everything it can do, the inversion of `exec`, and the cases of a clock
edge. -/

namespace Sys2Proof.Machine

/-! ### The pointer -/

/-- Everything `goto` can do when it answers a next state. -/
theorem State.goto_eq_next_iff {s t : State} {n : Nat} :
    s.goto n = .next t ↔ n < 2 ^ 64 ∧ t = { s with pc := BitVec.ofNat 64 n, run := runAt s n } := by
  have hrun : (if n = Config.sentinel ∨ s.progLen.toNat ≤ n then RunState.halted else RunState.running) = runAt s n := by
    unfold runAt; grind
  unfold State.goto
  rw [hrun]
  split
  · next h => simp only [Host.Outcome.next.injEq]; exact ⟨fun he => ⟨h, he.symm⟩, fun he => he.2.symm⟩
  · next h => exact ⟨fun he => by simp at he, fun he => absurd he.1 h⟩

theorem State.goto_of_lt (s : State) {n : Nat} (h : n < 2 ^ 64) :
    s.goto n = .next { s with pc := BitVec.ofNat 64 n, run := runAt s n } := State.goto_eq_next_iff.2 ⟨h, rfl⟩

theorem State.goto_of_not_lt (s : State) {n : Nat} (h : ¬ n < 2 ^ 64) : s.goto n = .refused .pointerOverflow := by
  unfold State.goto; rw [if_neg h]

theorem State.advance_of_lt (s : State) (h : s.pc.toNat < Config.maxLen) :
    s.advance = .next { s with pc := BitVec.ofNat 64 (s.pc.toNat + 1), run := runAt s (s.pc.toNat + 1) } :=
  s.goto_of_lt (by have : Config.maxLen < 2 ^ 64 := by decide
                   omega)

/-- A displacement from an address of a Program never leaves 64 bits (41_control_transfer.md R121). -/
theorem applyDisp_lt {p : Nat} (hp : p < Config.maxLen) (d : Word) : applyDisp p d.toInt < 2 ^ 64 := by
  have h := d.toInt_lt
  unfold applyDisp Config.sentinel
  unfold Config.maxLen at hp
  grind

/-! ### Operands -/

/-- An operand whose register exists has a value. -/
theorem State.eval?_of_wf (s : State) {x : Operand} (h : x.wf = true) : ∃ v, s.eval? x = some v := by
  cases x with
  | reg r => exact ⟨_, State.getReg?_of_regOk h⟩
  | imm n => exact ⟨n, rfl⟩

theorem State.eval?_of_not_wf (s : State) {x : Operand} (h : x.wf = false) : s.eval? x = none := by
  cases x with
  | reg r => exact State.getReg?_of_not_regOk h
  | imm n => simp [Operand.wf] at h

theorem State.withOperand_of_some {s : State} {x : Operand} {v : Word} (h : s.eval? x = some v) (k : Word → Out) :
    s.withOperand x k = k v := by simp [State.withOperand, h]

theorem State.withReg_of_regOk {s : State} {r : Reg} (h : regOk r = true) (k : Word → Out) :
    s.withReg r k = k (s.readPort r) := by simp [State.withReg, State.getReg?_of_regOk h]

/-- Everything `withOperand` can do. -/
theorem State.withOperand_cases (s : State) (x : Operand) (k : Word → Out) :
    (∃ v, s.eval? x = some v ∧ s.withOperand x k = k v) ∨
      (x.wf = false ∧ s.withOperand x k = .next (s.raise .registerIndexOutOfRange)) := by
  cases hx : x.wf
  · exact .inr ⟨rfl, by simp [State.withOperand, s.eval?_of_not_wf hx]⟩
  · obtain ⟨v, hv⟩ := s.eval?_of_wf hx
    exact .inl ⟨v, hv, State.withOperand_of_some hv k⟩

/-- Everything `withReg` can do. -/
theorem State.withReg_cases (s : State) (r : Reg) (k : Word → Out) :
    (regOk r = true ∧ s.withReg r k = k (s.readPort r)) ∨
      (regOk r = false ∧ s.withReg r k = .next (s.raise .registerIndexOutOfRange)) := by
  cases hr : regOk r
  · exact .inr ⟨rfl, by simp [State.withReg, State.getReg?_of_not_regOk hr]⟩
  · exact .inl ⟨rfl, State.withReg_of_regOk hr k⟩

/-! ### What an instruction can do -/

/-- Only registers and the trace differ, and at most one event was appended. -/
structure OnlyRegsAndTrace (s u : State) : Prop where
  pc      : u.pc = s.pc
  run     : u.run = s.run
  fault   : u.fault = s.fault
  progLen : u.progLen = s.progLen
  imem    : u.imem = s.imem
  driver  : u.driver = s.driver
  trace   : u.trace = s.trace ∨ ∃ e, u.trace = s.trace ++ [e]

theorem OnlyRegsAndTrace.refl (s : State) : OnlyRegsAndTrace s s := ⟨rfl, rfl, rfl, rfl, rfl, rfl, .inl rfl⟩

theorem OnlyRegsAndTrace.setReg (s : State) (r : Reg) (v : Word) : OnlyRegsAndTrace s (s.setReg r v) :=
  ⟨rfl, rfl, rfl, rfl, rfl, rfl, .inl rfl⟩

theorem OnlyRegsAndTrace.setReg_emit (s : State) (r : Reg) (v : Word) (e : Event) :
    OnlyRegsAndTrace s ((s.setReg r v).emit e) := ⟨rfl, rfl, rfl, rfl, rfl, rfl, .inr ⟨e, rfl⟩⟩

theorem OnlyRegsAndTrace.emit (s : State) (e : Event) : OnlyRegsAndTrace s (s.emit e) :=
  ⟨rfl, rfl, rfl, rfl, rfl, rfl, .inr ⟨e, rfl⟩⟩

/-- The ways an instruction can end: a raise for a register that does not exist, a raise for a zero divisor, a hold, or registers
and trace changed and then a `goto`. -/
inductive ExecEnds (i : Instr) (s : State) : Out → Prop where
  | badRegister (h : i.wf = false) : ExecEnds i s (.next (s.raise .registerIndexOutOfRange))
  | zeroDivisor (rd : Reg) (x : Operand) (hi : i = .mod rd x) (hx : s.eval? x = some 0) :
      ExecEnds i s (.next (s.raise .divisionByZero))
  | held (rd : Reg) (hi : i = .rcv rd) (h : s.portIn.rcvValid = false) : ExecEnds i s (.next s)
  | went (u : State) (n : Nat) (h : OnlyRegsAndTrace s u) : ExecEnds i s (u.goto n)

theorem ExecEnds.withOperand {i : Instr} {s : State} {x : Operand} {k : Word → Out} (hw : x.wf = false → i.wf = false)
    (h : ∀ v, s.eval? x = some v → ExecEnds i s (k v)) : ExecEnds i s (s.withOperand x k) := by
  obtain ⟨v, hv, he⟩ | ⟨hx, he⟩ := s.withOperand_cases x k <;> rw [he]
  · exact h v hv
  · exact .badRegister (hw hx)

theorem ExecEnds.withReg {i : Instr} {s : State} {r : Reg} {k : Word → Out} (hw : regOk r = false → i.wf = false)
    (h : ∀ v, ExecEnds i s (k v)) : ExecEnds i s (s.withReg r k) := by
  obtain ⟨-, he⟩ | ⟨hr, he⟩ := s.withReg_cases r k <;> rw [he]
  · exact h _
  · exact .badRegister (hw hr)

theorem ExecEnds.writeBack (i : Instr) (s : State) (rd : Reg) (v : Word) : ExecEnds i s (s.writeBack rd v) :=
  .went _ _ (OnlyRegsAndTrace.setReg s rd v)

/-- Every instruction ends in one of those ways. -/
theorem exec_ends (i : Instr) (s : State) : ExecEnds i s (exec i s) := by
  cases i with
  | snd x => exact .withOperand (by simp [Instr.wf]) fun v _ => .went _ _ (OnlyRegsAndTrace.emit s _)
  | set rd x =>
    exact .withReg (by simp +contextual [Instr.wf]) fun _ =>
      .withOperand (by simp +contextual [Instr.wf]) fun _ _ => .writeBack _ s rd _
  | add rd x =>
    exact .withReg (by simp +contextual [Instr.wf]) fun _ =>
      .withOperand (by simp +contextual [Instr.wf]) fun _ _ => .writeBack _ s rd _
  | sub rd x =>
    exact .withReg (by simp +contextual [Instr.wf]) fun _ =>
      .withOperand (by simp +contextual [Instr.wf]) fun _ _ => .writeBack _ s rd _
  | mul rd x =>
    exact .withReg (by simp +contextual [Instr.wf]) fun _ =>
      .withOperand (by simp +contextual [Instr.wf]) fun _ _ => .writeBack _ s rd _
  | mod rd x =>
    refine .withReg (by simp +contextual [Instr.wf]) fun d =>
      .withOperand (by simp +contextual [Instr.wf]) fun v hv => ?_
    split
    · next h0 => exact .zeroDivisor rd x rfl (h0 ▸ hv)
    · exact .writeBack _ s rd _
  | jgz x y =>
    exact .withOperand (by simp +contextual [Instr.wf]) fun _ _ =>
      .withOperand (by simp +contextual [Instr.wf]) fun _ _ => .went _ _ (OnlyRegsAndTrace.refl s)
  | jnz x y =>
    exact .withOperand (by simp +contextual [Instr.wf]) fun _ _ =>
      .withOperand (by simp +contextual [Instr.wf]) fun _ _ => .went _ _ (OnlyRegsAndTrace.refl s)
  | rcv rd =>
    refine .withReg (by simp [Instr.wf]) fun _ => ?_
    split
    · exact .went _ _ (OnlyRegsAndTrace.setReg_emit s rd _ _)
    · next h => exact .held rd rfl (by simpa using h)

/-- What an instruction's next state is, as an alternative per way of ending. -/
theorem exec_next_cases {i : Instr} {s t : State} (h : exec i s = .next t) :
    (i.wf = false ∧ t = s.raise .registerIndexOutOfRange) ∨
    ((∃ rd x, i = .mod rd x ∧ s.eval? x = some 0) ∧ t = s.raise .divisionByZero) ∨
    ((∃ rd, i = .rcv rd) ∧ s.portIn.rcvValid = false ∧ t = s) ∨
    ∃ u n, OnlyRegsAndTrace s u ∧ n < 2 ^ 64 ∧ t = { u with pc := BitVec.ofNat 64 n, run := runAt u n } := by
  have he := exec_ends i s
  rw [h] at he
  generalize ho : (Host.Outcome.next t : Out) = o at he
  cases he with
  | badRegister hw => injection ho with ho; exact .inl ⟨hw, ho⟩
  | zeroDivisor rd x hi hx => injection ho with ho; exact .inr (.inl ⟨⟨rd, x, hi, hx⟩, ho⟩)
  | held rd hi hv => injection ho with ho; exact .inr (.inr (.inl ⟨⟨rd, hi⟩, hv, ho⟩))
  | went u n hu =>
    obtain ⟨hn, ht⟩ := State.goto_eq_next_iff.1 ho.symm
    exact .inr (.inr (.inr ⟨u, n, hu, hn, ht⟩))

/-! ### A clock edge -/

theorem mapNext_eq_next_iff {f : State → State} {o : Out} {t : State} :
    mapNext f o = .next t ↔ ∃ u, o = .next u ∧ t = f u := by
  cases o <;> simp [mapNext, eq_comm]

/-- Everything the edge does to the core: reset, a fault entry, an instruction or the driver's write. -/
theorem State.coreEdge_cases (s : State) :
    (s.portIn.rst = true ∧ s.coreEdge = .next s.applyReset) ∨
    (s.portIn.rst = false ∧ s.stepEnabled = false ∧ s.coreEdge = .next s.driverWrite) ∨
    (s.stepEnabled = true ∧
      ((s.fetch = none ∧ s.coreEdge = .fault .fetchOutsideProgram) ∨
        (∃ c, s.coreEdge = .next (s.raise c)) ∨
        ∃ i, s.decoded = some (.instr i) ∧ s.coreEdge = exec i s)) := by
  unfold State.coreEdge
  cases hr : s.portIn.rst
  · cases he : s.stepEnabled
    · simp
    · right; right
      refine ⟨rfl, ?_⟩
      simp only [Bool.false_eq_true, if_false, if_true, State.takeStep]
      cases hd : s.decoded with
      | none => left; exact ⟨by simpa [State.decoded] using hd, rfl⟩
      | some r =>
        cases r with
        | illegal => right; left; exact ⟨_, rfl⟩
        | badRegister => right; left; exact ⟨_, rfl⟩
        | instr i => right; right; exact ⟨i, rfl, rfl⟩
  · simp

/-- A step is enabled only while the core is running and not faulted. -/
theorem State.active_of_stepEnabled {s : State} (h : s.stepEnabled = true) : s.run = .running ∧ s.fault = none := by
  simp only [State.stepEnabled, State.active, Bool.and_eq_true, decide_eq_true_eq, Option.isNone_iff_eq_none] at h
  exact h.1.1.2

/-! ### Runs -/

/-- A run under the driver contract is a run. -/
theorem RunTo.stepsTo {started : Bool} {k : Nat} {s t : State} (h : RunTo started k s t) : StepsTo k s t := by
  induction k generalizing started s with
  | zero => exact h
  | succ k ih =>
    obtain ⟨-, u, hu, h⟩ := h
    exact ⟨u, hu, ih h⟩

end Sys2Proof.Machine
end

