-- ==== Sys2Proof/Laws/PerInstr.lean ====
section
/-! SUPPORT. Facts about every instruction as syntax, one lemma per constructor. -/

namespace Sys2Proof.Laws

/-- The word of an instruction carries the opcode of its kind (30_encoding.md R74), zero reserved bits (R72) and zero in
the mode bits and the payload its format does not use (R73). -/
def EncodedFormat.Statement (i : Instr) : Prop :=
  (splitWord (encodeWord i)).op = i.kind.op ∧
    (splitWord (encodeWord i)).rsv = 0 ∧
    (i.kind.format.destA = true → (splitWord (encodeWord i)).am = false) ∧
    (i.kind.format.usedB = false → (splitWord (encodeWord i)).bm = false ∧ (splitWord (encodeWord i)).b = 0)

section
variable (rd : Reg) (x y : Operand)

theorem EncodedFormat.snd : EncodedFormat.Statement (.snd x) := by
  simp [EncodedFormat.Statement, encodeWord, encodeFields, fieldsS, Instr.kind, Kind.format, Format.destA]
theorem EncodedFormat.set : EncodedFormat.Statement (.set rd x) := by
  simp [EncodedFormat.Statement, encodeWord, encodeFields, fieldsRX, Instr.kind, Kind.format, Format.usedB]
theorem EncodedFormat.add : EncodedFormat.Statement (.add rd x) := by
  simp [EncodedFormat.Statement, encodeWord, encodeFields, fieldsRX, Instr.kind, Kind.format, Format.usedB]
theorem EncodedFormat.sub : EncodedFormat.Statement (.sub rd x) := by
  simp [EncodedFormat.Statement, encodeWord, encodeFields, fieldsRX, Instr.kind, Kind.format, Format.usedB]
theorem EncodedFormat.mul : EncodedFormat.Statement (.mul rd x) := by
  simp [EncodedFormat.Statement, encodeWord, encodeFields, fieldsRX, Instr.kind, Kind.format, Format.usedB]
theorem EncodedFormat.mod : EncodedFormat.Statement (.mod rd x) := by
  simp [EncodedFormat.Statement, encodeWord, encodeFields, fieldsRX, Instr.kind, Kind.format, Format.usedB]
theorem EncodedFormat.jgz : EncodedFormat.Statement (.jgz x y) := by
  simp [EncodedFormat.Statement, encodeWord, encodeFields, fieldsXY, Instr.kind, Kind.format, Format.destA, Format.usedB]
theorem EncodedFormat.jnz : EncodedFormat.Statement (.jnz x y) := by
  simp [EncodedFormat.Statement, encodeWord, encodeFields, fieldsXY, Instr.kind, Kind.format, Format.destA, Format.usedB]
theorem EncodedFormat.rcv : EncodedFormat.Statement (.rcv rd) := by
  simp [EncodedFormat.Statement, encodeWord, encodeFields, fieldsR, Instr.kind]

end

end Sys2Proof.Laws
end

