-- ==== Sys2Proof/Laws/Text.lean ====
section
/-! SUPPORT. Decoding UTF-8 is inverse to encoding it (30_encoding.md R70). -/

namespace Sys2Proof.Machine

/-- A character is a scalar value. -/
theorem isScalar_toNat (c : Char) : isScalar c.toNat = true := by
  have h := c.valid
  simp only [UInt32.isValidChar, Nat.isValidChar] at h
  change c.toNat < 0xd800 ∨ 0xdfff < c.toNat ∧ c.toNat < 0x110000 at h
  simpa [isScalar] using h

theorem utf8Byte_single {n : Nat} (h : n < 0x80) : utf8Byte (BitVec.ofNat 8 n) = .single := by
  have : (BitVec.ofNat 8 n).toNat = n := by rw [BitVec.toNat_ofNat]; omega
  simp [utf8Byte, this, h]

theorem utf8Byte_continuationByte (n k : Nat) : utf8Byte (continuationByte n k) = .continuation (n / 64 ^ k % 64) := by
  have : (continuationByte n k).toNat = 0x80 + n / 64 ^ k % 64 := by rw [continuationByte, BitVec.toNat_ofNat]; omega
  have h := Nat.mod_lt (n / 64 ^ k) (show 64 > 0 by omega)
  simp only [utf8Byte, this]
  rw [if_neg (by omega), if_pos (by omega)]
  rw [Nat.add_sub_cancel_left]

/-! The first byte of a character of two, three or four bytes. -/

theorem utf8Byte_lead1 {m : Nat} (h : m < 0x20) : utf8Byte (BitVec.ofNat 8 (0xC0 + m)) = .lead 1 0x80 m := by
  have : (BitVec.ofNat 8 (0xC0 + m)).toNat = 0xC0 + m := by rw [BitVec.toNat_ofNat]; omega
  simp only [utf8Byte, this]
  rw [if_neg (by omega), if_neg (by omega), if_pos (by omega)]
  rw [Nat.add_sub_cancel_left]
theorem utf8Byte_lead2 {m : Nat} (h : m < 0x10) : utf8Byte (BitVec.ofNat 8 (0xE0 + m)) = .lead 2 0x800 m := by
  have : (BitVec.ofNat 8 (0xE0 + m)).toNat = 0xE0 + m := by rw [BitVec.toNat_ofNat]; omega
  simp only [utf8Byte, this]
  rw [if_neg (by omega), if_neg (by omega), if_neg (by omega), if_pos (by omega)]
  rw [Nat.add_sub_cancel_left]
theorem utf8Byte_lead3 {m : Nat} (h : m < 8) : utf8Byte (BitVec.ofNat 8 (0xF0 + m)) = .lead 3 0x10000 m := by
  have : (BitVec.ofNat 8 (0xF0 + m)).toNat = 0xF0 + m := by rw [BitVec.toNat_ofNat]; omega
  simp only [utf8Byte, this]
  rw [if_neg (by omega), if_neg (by omega), if_neg (by omega), if_neg (by omega), if_pos (by omega)]
  rw [Nat.add_sub_cancel_left]

/-- The last byte of a character. -/
theorem decodeUtf8From_last {least acc bits : Nat} {b : Byte} (hb : utf8Byte b = .continuation bits) {c : Char}
    (hn : acc * 64 + bits = c.toNat) (hl : least ≤ c.toNat) (bs : List Byte) :
    decodeUtf8From 1 least acc (b :: bs) = (decodeUtf8From 0 0 0 bs).map (c :: ·) := by
  simp [decodeUtf8From, hb, hn, isScalar_toNat, hl, Char.ofNat_toNat]

/-- A byte inside a character that is not its last. -/
theorem decodeUtf8From_inner {more least acc bits : Nat} {b : Byte} (hb : utf8Byte b = .continuation bits) (bs : List Byte) :
    decodeUtf8From (more + 2) least acc (b :: bs) = decodeUtf8From (more + 1) least (acc * 64 + bits) bs := by
  simp [decodeUtf8From, hb]

theorem decodeUtf8From_lead {more least bits : Nat} {b : Byte} (hb : utf8Byte b = .lead more least bits) (bs : List Byte) :
    decodeUtf8From 0 0 0 (b :: bs) = decodeUtf8From more least bits bs := by
  simp [decodeUtf8From, hb]

theorem decodeUtf8From_encodeUtf8Char (c : Char) (bs : List Byte) :
    decodeUtf8From 0 0 0 (encodeUtf8Char c ++ bs) = (decodeUtf8From 0 0 0 bs).map (c :: ·) := by
  have hs := isScalar_toNat c
  simp only [isScalar, Bool.or_eq_true, Bool.and_eq_true, decide_eq_true_eq] at hs
  simp only [encodeUtf8Char]
  split
  · next h =>
    have : (BitVec.ofNat 8 c.toNat).toNat = c.toNat := by rw [BitVec.toNat_ofNat]; omega
    simp [decodeUtf8From, utf8Byte_single h, this, Char.ofNat_toNat]
  split
  · refine (decodeUtf8From_lead (utf8Byte_lead1 (by omega)) _).trans ?_
    exact decodeUtf8From_last (utf8Byte_continuationByte _ _) (by omega) (by omega) _
  split
  · refine (decodeUtf8From_lead (utf8Byte_lead2 (by omega)) _).trans ?_
    refine (decodeUtf8From_inner (utf8Byte_continuationByte _ _) _).trans ?_
    exact decodeUtf8From_last (utf8Byte_continuationByte _ _) (by omega) (by omega) _
  · refine (decodeUtf8From_lead (utf8Byte_lead3 (by omega)) _).trans ?_
    refine (decodeUtf8From_inner (utf8Byte_continuationByte _ _) _).trans ?_
    refine (decodeUtf8From_inner (utf8Byte_continuationByte _ _) _).trans ?_
    exact decodeUtf8From_last (utf8Byte_continuationByte _ _) (by omega) (by omega) _

/-- Decoding is inverse to encoding. -/
theorem decodeUtf8_encodeUtf8 (t : Text) : decodeUtf8 (encodeUtf8 t) = some t := by
  unfold decodeUtf8
  induction t with
  | nil => rfl
  | cons c t ih =>
    rw [show encodeUtf8 (c :: t) = encodeUtf8Char c ++ encodeUtf8 t from by simp [encodeUtf8],
      decodeUtf8From_encodeUtf8Char, ih, Option.map_some]

end Sys2Proof.Machine
end

