-- ==== Sys2Proof/Tests/Slice0.lean ====
section
/-! SUPPORT. The model's own tests: ill-formed terms refused, the words and vectors of spec/95_test_vectors.md (named V-… there),
and for every obligation with hypotheses a state and operands that meet them. Expected values come from the spec. -/

namespace Sys2Proof.Tests

open Sys2Proof.Machine

/-! ### Small states -/

/-- A running core at address `p` of a Program of length `L`, with `a` and `b` in the first two registers. -/
def at_ (L p : Nat) (a b : Int) : State :=
  { State.reset with
    regs    := ((Vector.replicate 26 0).set 0 (BitVec.ofInt 64 a)).set 1 (BitVec.ofInt 64 b)
    pc      := BitVec.ofNat 64 p
    run     := .running
    progLen := BitVec.ofNat 64 L }

/-- The state with the port values of the coming edge. -/
def ports (s : State) (p : PortIn) : State := { s with driver := [p] }

/-- A running core at address 0 of the Program of these words, with the port values of the coming edge. -/
def of (ws : List InstrWord) (p : PortIn) : State := ports { State.reset.load ws with run := .running } p

/-- What an instruction leaves, seen through `f`. -/
def after {α : Type} (i : Instr) (s : State) (f : State → α) : Option α := (nextState? (exec i s)).map f

/-- What an edge leaves, seen through `f`. -/
def edge {α : Type} (s : State) (f : State → α) : Option α := (nextState? (step s)).map f

/-- The first register and the pc. -/
def seen (s : State) : Int × Nat := ((s.readPort 0).toInt, s.pc.toNat)

/-- The pc and the run state. -/
def place (s : State) : Nat × RunState := (s.pc.toNat, s.run)

/-- The first register, the pc, the run state and the fault latch. -/
def whole (s : State) : Int × Nat × RunState × Option FaultRecord := ((s.readPort 0).toInt, s.pc.toNat, s.run, s.fault)

/-- The driver lets the core step. -/
def go : PortIn := PortIn.freeRun
/-- The driver holds the core. -/
def wait : PortIn := { PortIn.freeRun with go := false }
/-- The driver resets the core. -/
def rst : PortIn := { PortIn.freeRun with rst := true }

def MIN : Int := -9223372036854775808
def MAX : Int := 9223372036854775807

/-! ### WellFormed refuses an ill-formed term at each of its checks -/

theorem test_wf_snd : (Instr.snd (.reg 26)).wf = false := by decide
theorem test_wf_set : (Instr.set 26 (.imm 0)).wf = false ∧ (Instr.set 0 (.reg 31)).wf = false := by decide
theorem test_wf_add : (Instr.add 31 (.imm 0)).wf = false ∧ (Instr.add 0 (.reg 26)).wf = false := by decide
theorem test_wf_sub : (Instr.sub 26 (.reg 0)).wf = false ∧ (Instr.sub 25 (.reg 27)).wf = false := by decide
theorem test_wf_mul : (Instr.mul 26 (.reg 0)).wf = false ∧ (Instr.mul 25 (.reg 26)).wf = false := by decide
theorem test_wf_mod : (Instr.mod 28 (.reg 0)).wf = false ∧ (Instr.mod 25 (.reg 29)).wf = false := by decide
theorem test_wf_jgz : (Instr.jgz (.reg 26) (.imm 0)).wf = false ∧ (Instr.jgz (.imm 0) (.reg 26)).wf = false := by decide
theorem test_wf_jnz : (Instr.jnz (.reg 30) (.imm 0)).wf = false ∧ (Instr.jnz (.imm 0) (.reg 31)).wf = false := by decide
theorem test_wf_rcv : (Instr.rcv 26).wf = false := by decide
theorem test_wf_accepts : (Instr.set 25 (.reg 25)).wf = true ∧ (Instr.jnz (.imm (-1)) (.reg 0)).wf = true := by decide

/-! ### Decoding: the words of V-E1 and V-E2 -/

theorem test_decode_snd : decodeWord 0x1000000000000000000000000000000000 = .instr (.snd (.reg 0)) ∧
    decodeWord 0x1880000000000000000000000000000000 = .instr (.snd (.imm (BitVec.ofInt 64 MIN))) := by decide
theorem test_decode_set : decodeWord 0x2000000000000000020000000000000000 = .instr (.set 2 (.reg 0)) ∧
    decodeWord 0x2400000000000000197FFFFFFFFFFFFFFF = .instr (.set 25 (.imm (BitVec.ofInt 64 MAX))) := by decide
theorem test_decode_add : decodeWord 0x3400000000000000000000000000000002 = .instr (.add 0 (.imm 2)) := by decide
theorem test_decode_sub : decodeWord 0x4400000000000000000000000000000004 = .instr (.sub 0 (.imm 4)) := by decide
theorem test_decode_mul : decodeWord 0x5000000000000000000000000000000000 = .instr (.mul 0 (.reg 0)) := by decide
theorem test_decode_mod : decodeWord 0x6000000000000000190000000000000019 = .instr (.mod 25 (.reg 25)) ∧
    decodeWord 0x6400000000000000000000000000000005 = .instr (.mod 0 (.imm 5)) := by decide
theorem test_decode_jgz_modes : decodeWord 0x7000000000000000000000000000000000 = .instr (.jgz (.reg 0) (.reg 0)) ∧
    decodeWord 0x7400000000000000000000000000000000 = .instr (.jgz (.reg 0) (.imm 0)) ∧
    decodeWord 0x7800000000000000000000000000000000 = .instr (.jgz (.imm 0) (.reg 0)) ∧
    decodeWord 0x7C0000000000000001FFFFFFFFFFFFFFFE = .instr (.jgz (.imm 1) (.imm (-2))) := by decide
theorem test_decode_jnz : decodeWord 0x8000000000000000190000000000000018 = .instr (.jnz (.reg 25) (.reg 24)) ∧
    decodeWord 0x8C00000000000000010000000000000003 = .instr (.jnz (.imm 1) (.imm 3)) := by decide
theorem test_decode_rcv : decodeWord 0x9000000000000000190000000000000000 = .instr (.rcv 25) := by decide

theorem test_decode_illegal_opcode_or_reserved :
    decodeWord 0 = .illegal ∧ decodeWord 0xA000000000000000000000000000000000 = .illegal ∧
    decodeWord 0xF000000000000000000000000000000000 = .illegal ∧ decodeWord (BitVec.allOnes 136) = .illegal ∧
    decodeWord 0x2500000000000000000000000000000001 = .illegal := by decide
theorem test_decode_illegal_mode_or_unused_field :
    decodeWord 0x2C00000000000000000000000000000001 = .illegal ∧ decodeWord 0x9800000000000000000000000000000000 = .illegal ∧
    decodeWord 0x1400000000000000000000000000000000 = .illegal ∧ decodeWord 0x1000000000000000000000000000000001 = .illegal ∧
    decodeWord 0x9000000000000000000000000000000001 = .illegal := by decide
theorem test_decode_illegal_payload_first :
    decodeWord 0x2400000000000000200000000000000000 = .illegal ∧
    decodeWord 0x3000000000000000008000000000000000 = .illegal ∧ decodeWord 0x26000000000000001A0000000000000005 = .illegal ∧
    decodeWord 0x20000000000000001A0000010000000000 = .illegal := by decide
theorem test_decode_bad_destination :
    decodeWord 0x24000000000000001A0000000000000005 = .badRegister ∧ decodeWord 0x24000000000000001F0000000000000005 = .badRegister ∧
    decodeWord 0x90000000000000001A0000000000000000 = .badRegister := by decide
theorem test_decode_bad_operand :
    decodeWord 0x300000000000000000000000000000001A = .badRegister ∧ decodeWord 0x10000000000000001E0000000000000000 = .badRegister ∧
    decodeWord 0x74000000000000001B0000000000000001 = .badRegister ∧ decodeWord 0x880000000000000005000000000000001F = .badRegister := by decide

/-- Each row's pattern, read as a word of the row, decodes to the row's kind: all operand indices and immediates are 0. -/
theorem test_decode_table_rows : ∀ row ∈ opcodeTable, (decodeTableWord 136 row.pattern.toNat).map Instr.kind = some row.kind := by
  decide

/-- 20_memory.md R43 and V-E1: the image of `set a 1`. -/
theorem test_encode_bytes : encode (.set 0 (.imm 1)) = [0x24, 0, 0, 0, 0, 0, 0, 0, 0, 0, 0, 0, 0, 0, 0, 0, 1] := by decide
theorem test_decode_truncated : decodeBytes (List.replicate 16 0) = .truncated := by decide

/-! ### Instructions, at most two tests each (V-A1 to V-D1, V-J1) -/

theorem test_set_min : after (.set 25 (.imm (BitVec.ofInt 64 MIN))) (at_ 9 3 77 0) (fun t => ((t.readPort 25).toInt, seen t)) =
    some (MIN, 77, 4) := by decide
theorem test_set_register : after (.set 0 (.reg 1)) (at_ 9 3 5 9) seen = some (9, 4) := by decide
theorem test_add_wraps : after (.add 0 (.imm 1)) (at_ 9 3 MAX 0) seen = some (MIN, 4) := by decide
theorem test_add_same_register : after (.add 0 (.reg 0)) (at_ 9 3 21 0) seen = some (42, 4) := by decide
theorem test_sub_order : after (.sub 0 (.imm 4)) (at_ 9 3 9 0) seen = some (5, 4) := by decide
theorem test_sub_negating_min : after (.sub 0 (.imm (BitVec.ofInt 64 MIN))) (at_ 9 3 0 0) seen = some (MIN, 4) := by decide
theorem test_mul_low_half : after (.mul 0 (.imm 3037000500)) (at_ 9 3 3037000500 0) seen = some (-9223372036709301616, 4) := by
  decide
theorem test_mul_max_max : after (.mul 0 (.reg 0)) (at_ 9 3 MAX 0) seen = some (1, 4) := by decide
theorem test_mod_truncates : after (.mod 0 (.imm 3)) (at_ 9 3 (-7) 0) seen = some (-1, 4) ∧
    after (.mod 0 (.imm (-3))) (at_ 9 3 7 0) seen = some (1, 4) := by decide
theorem test_mod_min_by_minus_one : after (.mod 0 (.imm (-1))) (at_ 9 3 MIN 0) seen = some (0, 4) := by decide
theorem test_jgz_on_zero_and_min : after (.jgz (.imm 0) (.imm 2)) (at_ 100 0 0 0) place = some (1, .running) ∧
    after (.jgz (.reg 0) (.imm 5)) (at_ 100 10 MIN 0) place = some (11, .running) := by decide
theorem test_jgz_taken : after (.jgz (.reg 0) (.reg 0)) (at_ 100 1 3 0) place = some (4, .running) ∧
    after (.jgz (.imm 1) (.imm 0)) (at_ 100 5 0 0) place = some (5, .running) := by decide
theorem test_jnz_backward : after (.jnz (.reg 0) (.reg 1)) (at_ 100 7 1 (-7)) place = some (0, .running) ∧
    after (.jnz (.reg 0) (.reg 1)) (at_ 100 7 1 (-8)) place = some (2 ^ 64 - 1, .halted) := by decide
theorem test_jnz_forward : after (.jnz (.imm 1) (.imm 95)) (at_ 100 5 0 0) place = some (100, .halted) ∧
    after (.jnz (.imm 1) (.imm (BitVec.ofInt 64 MAX))) (at_ 100 3 0 0) place = some (9223372036854775810, .halted) := by decide
theorem test_snd_emits : after (.snd (.reg 0)) (at_ 9 3 42 0) (fun t => (t.trace, seen t)) = some ([.send 42], 42, 4) := by decide
theorem test_snd_last_halts : after (.snd (.imm 1)) (at_ 9 8 0 0) place = some (9, .halted) := by decide
theorem test_rcv_takes_the_value : after (.rcv 0) (ports (at_ 9 3 5 0) (supplyEdge 41)) (fun t => (t.trace, seen t)) =
    some ([.recv 0 41], 41, 4) := by decide
theorem test_rcv_holds : after (.rcv 0) (at_ 9 3 5 0) id = some (at_ 9 3 5 0) := by decide

/-! ### Faults (V-F1 to V-F4), reset (V-R1), no step (V-R2) -/

theorem test_fault_illegal : edge (of [0] go) whole = some (0, 0, .running, some ⟨.illegalInstruction, 0⟩) := by decide
theorem test_fault_bad_register : edge (of [0x24000000000000001A0000000000000005] go) whole =
    some (0, 0, .running, some ⟨.registerIndexOutOfRange, 0⟩) := by decide
theorem test_fault_division : after (.mod 0 (.imm 0)) (at_ 1 0 9 0) whole = some (9, 0, .running, some ⟨.divisionByZero, 0⟩) := by
  decide
theorem test_fault_priority : edge (of [0x60000000000000001A0000000000000001] go) whole =
    some (0, 0, .running, some ⟨.registerIndexOutOfRange, 0⟩) := by decide
theorem test_reset_clears_a_fault : edge (ports { at_ 4 2 10 0 with fault := some ⟨.divisionByZero, 2⟩ } rst) whole =
    some (0, 0, .running, none) := by decide
theorem test_reset_empty_program : edge (ports (at_ 0 3 10 0) rst) whole = some (0, 0, .halted, none) := by decide
theorem test_halted_takes_no_step : edge { at_ 5 5 0 0 with run := .halted } whole = some (0, 5, .halted, none) := by decide
theorem test_preset : edge (ports (at_ 5 0 0 0) (presetEdge 0 7)) whole = some (7, 0, .running, none) := by decide

/-- V-H1: `handled` for `set a a`, `snd 1` and `jnz 0 0`; V-D1: the outputs of a held `rcv`. -/
theorem test_handled : (of [encodeWord (.set 0 (.reg 0))] go).portOut.handled = some true ∧
    (of [encodeWord (.snd (.imm 1))] go).portOut.handled = some false ∧
    (of [encodeWord (.jnz (.imm 0) (.imm 0))] go).portOut.handled = some false := by decide
/-- R110 and D30: a `mod` by zero shows its kind where no step is taken (no `go`, reset, already faulted), and has no meaningful
`handled` in the step that faults. -/
theorem test_handled_of_mod_by_zero : (of [encodeWord (.mod 0 (.imm 0))] wait).portOut.handled = some true ∧
    (of [encodeWord (.mod 0 (.imm 0))] rst).portOut.handled = some true ∧
    { of [encodeWord (.mod 0 (.imm 0))] go with fault := some ⟨.divisionByZero, 0⟩ }.portOut.handled = some true ∧
    (of [encodeWord (.mod 0 (.imm 0))] go).portOut.handled = none := by decide
theorem test_outputs_of_a_hold : (of [encodeWord (.rcv 0)] go).portOut.rcvReq = true ∧
    (of [encodeWord (.rcv 0)] go).portOut.rcvReg = some 0 ∧ (of [encodeWord (.rcv 0)] go).portOut.halted = false := by decide

/-! ### Placed words: the first instruction after reset is the word's, for every row of the table -/

theorem test_placed_word_steps : ∀ row ∈ opcodeTable,
    (edge (State.reset.withFetchWord 136 row.pattern.toNat) fun _ => ()) = some () := by decide
theorem test_placed_set_runs : edge (State.reset.withFetchWord 136 0x2400000000000000000000000000000001) seen = some (1, 1) := by
  decide

/-! ### The text form (V-T1 to V-T3) -/

theorem test_text_trim : decodeLine "\tmul b -0\r".toList = .ok (.mul 1 (.imm 0)) := by decide
theorem test_text_tokens : decodeLine "snd -5".toList = .ok (.snd (.imm (-5))) ∧ decodeLine "snd z".toList = .ok (.snd (.reg 25)) ∧
    decodeLine "rcv q".toList = .ok (.rcv 16) ∧ decodeLine "jgz 1 -2".toList = .ok (.jgz (.imm 1) (.imm (-2))) := by decide
theorem test_text_refused :
    ∀ l ∈ ["set a -9223372036854775809", "rcv A", "set é 1", "Set a 1", "set a\t1", "set a", "snd a b", "set 1 a", "rcv 5",
        "set ab 1", "set a +1", "set a -", "sub a --5", "set a 1.0", "jmp 3", "", "   ", "set a 1 ; c"],
      decodeLine l.toList = .error (.malformedInstruction l.toList) := by decide
theorem test_resolve_operand : resolve "A".toList = .error (.malformedOperand "A".toList) ∧ resolve "5".toList = .ok (.imm 5) := by
  decide
theorem test_load_texts : loadText [] = .ok [] ∧ loadText "set a 1\r\nadd a 2\r\n".toList = .ok [.set 0 (.imm 1), .add 0 (.imm 2)] ∧
    loadText "set a 1\n\n".toList = .error (.malformedInstruction []) ∧ loadText "\n".toList = .error (.malformedInstruction []) ∧
    loadText "set a 1\nbogus\nadd a 2".toList = .error (.malformedInstruction "bogus".toList) := by decide
/-- The first line that fails is the one reported: the model's choice (log 20). -/
theorem test_load_reports_the_first_bad_line :
    loadText "rcv a\nfoo\nbar".toList = .error (.malformedInstruction "foo".toList) := by decide
/-- `é`, `€` and a character of four bytes, by the standard's own examples. -/
theorem test_utf8_characters : decodeUtf8 [0xC3, 0xA9, 0xE2, 0x82, 0xAC, 0xF0, 0x90, 0x8D, 0x88, 0x61] = some "é€𐍈a".toList := by decide
/-- A longer form of `/`, a surrogate, a number past the last character, a cut character and a stray continuation byte. -/
theorem test_utf8_refused : decodeUtf8 [0xC0, 0xAF] = none ∧ decodeUtf8 [0xED, 0xA0, 0x80] = none ∧
    decodeUtf8 [0xF4, 0x90, 0x80, 0x80] = none ∧ decodeUtf8 [0x61, 0xE2, 0x82] = none ∧ decodeUtf8 [0x80] = none := by decide
theorem test_load_bytes : loadBytes [0x72, 0x63, 0x76, 0x20, 0x61, 0x0D, 0x0A] = .ok [.rcv 0] ∧
    loadBytes [0x72, 0x63, 0x76, 0x20, 0xC3] = .error .malformedUtf8 := by decide
theorem test_load_bytes_of_a_bad_line : loadBytes [0xC3, 0xA9] = .error (.malformedInstruction ['é']) := by decide
theorem test_disassemble : disassemble 0x840000000000000000FFFFFFFFFFFFFFFF = some "jnz a -1".toList ∧ disassemble 0 = none := by decide
theorem test_launch_refuses : (launch [0] []).isNone = true ∧ (launch [encodeWord (.rcv 0)] []).isSome = true := by decide

/-! ### Witnesses: states and operands that meet the hypotheses of each obligation, clause by clause -/

theorem witness_ResetEdgeGivesResetValues : (ports (at_ 4 2 10 0) rst).portIn.rst = true ∧ 0 < (ports (at_ 4 2 10 0) rst).progLen.toNat ∧
    (ports (at_ 0 2 10 0) rst).progLen.toNat = 0 := by decide
theorem witness_RegisterReadsBackWhatWasWritten : regOk 25 = true ∧ (24 : Reg) ≠ 25 := by decide
theorem witness_OnlyTheDestinationRegisterChanges :
    ∃ t, exec (.set 0 (.imm 5)) (at_ 9 3 7 0) = .next t ∧ t.readPort 0 ≠ (at_ 9 3 7 0).readPort 0 := ⟨_, rfl, by decide⟩
theorem witness_SetCompletes : (Instr.set 25 (.reg 0)).wf = true ∧ (at_ 9 (2 ^ 63 - 1) 7 0).pc.toNat < Config.maxLen := by decide
theorem witness_AddCompletes : (Instr.add 25 (.reg 0)).wf = true ∧ (at_ 9 (2 ^ 63 - 1) 7 0).pc.toNat < Config.maxLen := by decide
theorem witness_SubCompletes : (Instr.sub 25 (.reg 0)).wf = true ∧ (at_ 9 (2 ^ 63 - 1) 7 0).pc.toNat < Config.maxLen := by decide
theorem witness_MulCompletes : (Instr.mul 25 (.reg 0)).wf = true ∧ (at_ 9 (2 ^ 63 - 1) 7 0).pc.toNat < Config.maxLen := by decide
theorem witness_ModCompletes : (Instr.mod 25 (.reg 0)).wf = true ∧ (at_ 9 (2 ^ 63 - 1) 7 0).value (.reg 0) ≠ 0 ∧
    (at_ 9 (2 ^ 63 - 1) 7 0).pc.toNat < Config.maxLen := by decide
theorem witness_ModByZeroRaises : (Instr.mod 0 (.reg 1)).wf = true ∧ (at_ 9 3 7 0).value (.reg 1) = 0 := by decide
theorem witness_WrapFollowsTheFormula : Config.minInt ≤ MIN ∧ MAX ≤ Config.maxInt := by decide
theorem witness_LowBitsDoNotDependOnSignedness : (regOk 0 && (Operand.reg 1).wf) = true ∧
    (∃ t, exec (.add 0 (.reg 1)) (at_ 9 3 MIN (-1)) = .next t) ∧ (∃ t, exec (.sub 0 (.reg 1)) (at_ 9 3 MIN 1) = .next t) ∧
    ∃ t, exec (.mul 0 (.reg 1)) (at_ 9 3 MIN (-1)) = .next t := ⟨by decide, ⟨_, rfl⟩, ⟨_, rfl⟩, _, rfl⟩
theorem witness_RemainderFollowsTheDividend : (Instr.mod 0 (.reg 1)).wf = true ∧ (at_ 9 3 (-7) 3).value (.reg 1) ≠ 0 ∧
    ∃ t, exec (.mod 0 (.reg 1)) (at_ 9 3 (-7) 3) = .next t ∧ (t.readPort 0).toInt ≠ 0 := ⟨by decide, by decide, _, rfl, by decide⟩
theorem witness_SameRegisterAsSourceAndDestination : regOk 0 = true ∧ (at_ 9 3 6 0).pc.toNat < Config.maxLen ∧
    (at_ 9 3 6 0).readPort 0 ≠ 0 ∧ (at_ 9 3 0 0).readPort 0 = 0 := by decide
theorem witness_OnlyModFaultsOnceDecoded : (Instr.mod 0 (.imm 0)).wf = true ∧
    ∃ t, exec (.mod 0 (.imm 0)) (at_ 9 3 7 0) = .next t ∧ t.fault ≠ (at_ 9 3 7 0).fault := ⟨by decide, _, rfl, by decide⟩
/-- V-J2 at the ends of the ranges: the largest sum, a jump to address 0, one step further, and `MIN` at the largest address. -/
theorem witness_DisplacementApplication : 2 ^ 63 - 1 < Config.maxLen ∧
    (0 ≤ (0x7FFFFFFFFFFFFFFF : Word).toInt ∧ applyDisp (2 ^ 63 - 1) (0x7FFFFFFFFFFFFFFF : Word).toInt = 2 ^ 64 - 2) ∧
    ((-5 : Word).toInt < 0 ∧ (-5 : Word).toInt.natAbs ≤ 5 ∧ applyDisp 5 (-5 : Word).toInt = 0) ∧
    ((-6 : Word).toInt < 0 ∧ 5 < (-6 : Word).toInt.natAbs ∧ applyDisp 5 (-6 : Word).toInt = 2 ^ 64 - 1) ∧
    (2 ^ 63 - 1 < (BitVec.ofInt 64 MIN).toInt.natAbs ∧ applyDisp (2 ^ 63 - 1) (BitVec.ofInt 64 MIN).toInt = 2 ^ 64 - 1) := by decide
theorem witness_JgzCompletes : (Instr.jgz (.reg 0) (.reg 1)).wf = true ∧ (at_ 9 3 1 (-3)).pc.toNat < Config.maxLen ∧
    0 < ((at_ 9 3 1 (-3)).value (.reg 0)).toInt ∧ ((at_ 9 3 0 (-3)).value (.reg 0)).toInt ≤ 0 := by decide
theorem witness_JnzCompletes : (Instr.jnz (.reg 0) (.reg 1)).wf = true ∧ (at_ 9 3 (-1) (-3)).pc.toNat < Config.maxLen ∧
    (at_ 9 3 (-1) (-3)).value (.reg 0) ≠ 0 ∧ (at_ 9 3 0 (-3)).value (.reg 0) = 0 := by decide
theorem witness_PcTakesTheNextPointer : (Instr.rcv 0).wf = true ∧ (ports (at_ 9 3 5 0) (supplyEdge 41)).fault = none ∧
    (∀ rd, Instr.rcv 0 = .rcv rd → (ports (at_ 9 3 5 0) (supplyEdge 41)).portIn.rcvValid = true) ∧
    ∃ t, exec (.rcv 0) (ports (at_ 9 3 5 0) (supplyEdge 41)) = .next t ∧ t.fault = none :=
  ⟨by decide, rfl, fun _ _ => rfl, _, rfl, rfl⟩

/-- A running core meets the invariant. -/
theorem inv_running : (at_ 9 3 1 0).Inv where
  lenOk := by decide
  imageOk := by decide
  running := by decide
  halted := by decide
  faulted := by intro f h; cases h
  sentinel := by decide

theorem witness_ZeroDisplacementLoopsInPlace : ((Operand.reg 0).wf && (Operand.reg 1).wf) = true ∧
    (at_ 9 3 1 0).value (.reg 1) = 0 ∧ (at_ 9 3 1 0).run = .running ∧ (at_ 9 3 1 0).Inv ∧
    0 < ((at_ 9 3 1 0).value (.reg 0)).toInt := ⟨by decide, by decide, rfl, inv_running, by decide⟩
theorem witness_JumpOutOfTheProgramHalts : ((Operand.reg 0).wf && (Operand.reg 1).wf) = true ∧
    (at_ 9 3 1 6).pc.toNat < Config.maxLen ∧ (at_ 9 3 1 6).progLen.toNat ≤ Config.maxLen ∧
    0 < ((at_ 9 3 1 6).value (.reg 0)).toInt ∧
    (0 ≤ ((at_ 9 3 1 6).value (.reg 1)).toInt ∧
      ((at_ 9 3 1 6).progLen.toNat : Int) ≤ (at_ 9 3 1 6).pc.toNat + ((at_ 9 3 1 6).value (.reg 1)).toInt) ∧
    ((at_ 9 3 1 (-4)).value (.reg 1)).toInt < 0 ∧
    (at_ 9 3 1 (-4)).pc.toNat < ((at_ 9 3 1 (-4)).value (.reg 1)).toInt.natAbs := by decide
theorem witness_ForwardOverflowIsRefused : ((Operand.reg 0).wf && (Operand.reg 1).wf) = true ∧
    0 < ((at_ 9 (2 ^ 63 + 1) 1 MAX).value (.reg 0)).toInt ∧
    (2 : Int) ^ 64 ≤ (at_ 9 (2 ^ 63 + 1) 1 MAX).pc.toNat + ((at_ 9 (2 ^ 63 + 1) 1 MAX).value (.reg 1)).toInt := by decide
theorem witness_SndCompletes : (Instr.snd (.reg 25)).wf = true ∧ (at_ 9 (2 ^ 63 - 1) 7 0).pc.toNat < Config.maxLen := by decide
theorem witness_RcvCompletes : (Instr.rcv 25).wf = true ∧ (ports (at_ 9 (2 ^ 63 - 1) 7 0) (supplyEdge 41)).portIn.rcvValid = true ∧
    (ports (at_ 9 (2 ^ 63 - 1) 7 0) (supplyEdge 41)).pc.toNat < Config.maxLen := by decide

/-- A core at `rcv z`. -/
def atRcv (p : PortIn) : State := of [0x9000000000000000190000000000000000] p

theorem witness_RcvHoldsWithoutAValue : (atRcv go).currentInstr? = some (.rcv 25) ∧ (atRcv go).run = .running ∧
    (atRcv go).fault = none ∧ (atRcv go).portIn.rcvValid = false ∧ (atRcv go).portIn.rst = false ∧
    (atRcv go).portIn.regWe = false := by decide
theorem witness_EncodeAndDecodeAreInverse : (Instr.jgz (.imm (-1)) (.reg 25)).wf = true ∧
    decodeWord 0x7CFFFFFFFFFFFFFFFFFFFFFFFFFFFFFFFF = .instr (.jgz (.imm (-1)) (.imm (-1))) := by decide
/-- A canonical image with a listed byte. -/
theorem witness_StoredImageByteOrder : Memory.wf [(3, 7)] := by decide
theorem witness_RenderThenDecodeLineIsTheIdentity : (Instr.snd (.imm (BitVec.ofInt 64 MIN))).wf = true ∧
    decodeLine "  add a 007 ".toList = .ok (.add 0 (.imm 7)) := by decide
theorem witness_LoaderIsAllOrNothing :
    ((∀ line ∈ textLines "rcv a\nsnd a".toList, ∃ i, decodeLine line = .ok i) ∧
      (textLines "rcv a\nsnd a".toList).length ≤ Config.maxLen) ∧
    (loadText "rcv a\nsnd a".toList = .ok [.rcv 0, .snd (.reg 0)] ∧
      (textLines "rcv a\nsnd a".toList)[1]? = some "snd a".toList) ∧
    "bogus".toList ∈ textLines "rcv a\nbogus".toList ∧
    decodeLine "bogus".toList = .error (.malformedInstruction "bogus".toList) ∧
    (textLines "rcv a\nbogus".toList).length ≤ Config.maxLen := by
  refine ⟨⟨fun line h => ?_, by decide⟩, by decide⟩
  rw [show textLines "rcv a\nsnd a".toList = ["rcv a".toList, "snd a".toList] by decide] at h
  obtain rfl | rfl : line = "rcv a".toList ∨ line = "snd a".toList := by simpa using h
  · exact ⟨.rcv 0, by decide⟩
  · exact ⟨.snd (.reg 0), by decide⟩
theorem witness_StoredTextLoadsAsItsCharacters : loadBytes [0x72, 0x63, 0x76, 0x20, 0x61] ≠ .error .malformedUtf8 := by decide
theorem witness_LaunchLaysTheProgramOut : (∀ i ∈ [Instr.rcv 25, .snd (.imm 7)], i.wf = true) ∧
    [Instr.rcv 25, .snd (.imm 7)].length ≤ Config.maxLen ∧
    [Instr.rcv 25, .snd (.imm 7)][1]? = some (.snd (.imm 7)) := by decide
theorem witness_StepRunsTheDecodedInstruction : (atRcv (supplyEdge 3)).pc.toNat < (atRcv (supplyEdge 3)).progLen.toNat ∧
    decodeWord ((atRcv (supplyEdge 3)).imem.readWord (atRcv (supplyEdge 3)).pc.toNat) = .instr (.rcv 25) ∧
    (atRcv (supplyEdge 3)).run = .running ∧ (atRcv (supplyEdge 3)).fault = none ∧ (atRcv (supplyEdge 3)).portIn.rst = false ∧
    (atRcv (supplyEdge 3)).portIn.go = true ∧ (atRcv (supplyEdge 3)).portIn.rcvValid = true := by decide
theorem witness_UndecodableWordFaults : (of [0] go).pc.toNat < (of [0] go).progLen.toNat ∧ (of [0] go).run = .running ∧
    (of [0] go).fault = none ∧ (of [0] go).portIn.rst = false ∧ (of [0] go).portIn.go = true ∧
    decodeWord ((of [0] go).imem.readWord 0) = .illegal ∧
    decodeWord ((of [0x90000000000000001A0000000000000000] go).imem.readWord 0) = .badRegister := by decide
theorem witness_IllFormedInstructionFaults : (Instr.rcv 26).wf = false := by decide
theorem witness_RunStateFollowsTheNextPointer : (at_ 9 8 0 0).fault = none ∧
    (∃ t, exec (.set 0 (.imm 5)) (at_ 9 8 0 0) = .next t ∧ t.fault = none ∧ t.run = .halted) ∧
    ∃ t, exec (.set 0 (.imm 5)) (at_ 9 7 0 0) = .next t ∧ t.fault = none ∧ t.run = .running :=
  ⟨rfl, ⟨_, rfl, rfl, by decide⟩, _, rfl, rfl, by decide⟩
theorem witness_AStepIsTakenExactlyWhenEnabled : (atRcv go).portIn.rst = false ∧ (atRcv go).portIn.regWe = false ∧
    ((atRcv (supplyEdge 3)).run = .running ∧ (atRcv (supplyEdge 3)).fault = none ∧ (atRcv (supplyEdge 3)).portIn.go = true ∧
      (atRcv (supplyEdge 3)).portIn.rcvValid = true) ∧
    State.reset.run = .halted ∧ { at_ 4 2 10 0 with fault := some ⟨.divisionByZero, 2⟩ }.fault ≠ none ∧
    (ports (at_ 9 3 0 0) wait).portIn.go = false ∧
    (atRcv go).currentInstr? = some (.rcv 25) ∧ (atRcv go).portIn.rcvValid = false := by decide
theorem witness_DriverWritesARegisterBetweenSteps : (ports (at_ 5 0 0 0) (presetEdge 25 7)).portIn.rst = false ∧
    (ports (at_ 5 0 0 0) (presetEdge 25 7)).portIn.regWe = true ∧ (ports (at_ 5 0 0 0) (presetEdge 25 7)).stepEnabled = false ∧
    (ports (at_ 5 0 0 0) (presetEdge 26 7)).stepEnabled = false ∧ regOk 25 = true ∧ regOk 26 = false := by decide
theorem witness_OnlyResetLeavesHalted : State.reset.run = .halted ∧ State.reset.portIn.rst = false ∧
    State.reset.portIn.regWe = false ∧ (∃ t, step State.reset = .next t) ∧
    (ports State.reset (presetEdge 25 7)).portIn.regWe = true ∧ (24 : Reg) ≠ (ports State.reset (presetEdge 25 7)).portIn.regSel ∧
    ∃ t, step (ports State.reset (presetEdge 25 7)) = .next t := ⟨rfl, rfl, rfl, ⟨_, rfl⟩, rfl, by decide, _, rfl⟩

/-- A faulted core. -/
def faulted : State := { at_ 4 2 10 0 with fault := some ⟨.divisionByZero, 2⟩ }

theorem witness_OnlyResetClearsAFault : faulted.fault = some ⟨.divisionByZero, 2⟩ ∧ faulted.portIn.rst = false ∧
    faulted.portIn.regWe = false ∧ (∃ t, step faulted = .next t) ∧
    (24 : Reg) ≠ (ports faulted (presetEdge 25 7)).portIn.regSel ∧ ∃ t, step (ports faulted (presetEdge 25 7)) = .next t :=
  ⟨rfl, rfl, rfl, ⟨_, rfl⟩, by decide, _, rfl⟩
theorem witness_OnlyInstructionsWriteRegistersInMidRun : (atRcv (supplyEdge 3)).keepsContract true ∧
    ∃ t, step (atRcv (supplyEdge 3)) = .next t ∧ t.readPort 25 ≠ (atRcv (supplyEdge 3)).readPort 25 :=
  ⟨⟨rfl, fun _ => rfl⟩, _, rfl, by decide⟩
/-- Two edges of an ended run and of a failed one. -/
theorem witness_AnEndedRunStaysAsItIs :
    (State.reset.isFinal = true ∧ ∃ t, RunTo true 2 State.reset t) ∧ faulted.isFailed = true ∧ ∃ t, RunTo true 2 faulted t :=
  ⟨⟨by decide, _, ⟨rfl, fun _ => rfl⟩, _, rfl, ⟨rfl, fun _ => rfl⟩, _, rfl, rfl⟩,
    by decide, _, ⟨rfl, fun _ => rfl⟩, _, rfl, ⟨rfl, fun _ => rfl⟩, _, rfl, rfl⟩
theorem witness_FaultsArePrecise : (of [0] go).fault = none ∧ ∃ t, step (of [0] go) = .next t ∧ t.fault ≠ none :=
  ⟨rfl, _, rfl, by decide⟩
theorem witness_NoStepChangesTheProgram : ∃ t, step (atRcv (supplyEdge 3)) = .next t := ⟨_, rfl⟩
theorem witness_TraceRecordsTheHandOffs :
    ((of [0x1800000000000000070000000000000000] go).portOut.sndData = some 7 ∧
      ∃ t, step (of [0x1800000000000000070000000000000000] go) = .next t) ∧
    (atRcv (supplyEdge 3)).portIn.rst = false ∧ (atRcv (supplyEdge 3)).portOut.sndValid = false ∧
    ∃ t, step (atRcv (supplyEdge 3)) = .next t := ⟨⟨by decide, _, rfl⟩, rfl, by decide, _, rfl⟩
theorem witness_ReceivePortIgnoredUnlessRequested : (of [0x1800000000000000070000000000000000] go).driver = go :: [] ∧
    (of [0x1800000000000000070000000000000000] go).portOut.rcvReq = false := by decide
theorem witness_StatusOutputsShowTheState : faulted.fault = some ⟨.divisionByZero, 2⟩ ∧ (atRcv go).fault = none := by decide
theorem witness_ReadPortShowsTheRegisterAndChangesNothing : (ports (at_ 5 0 7 0) { go with regSel := 0 }).getReg? 0 = some 7 ∧
    (ports (at_ 5 0 7 0) { go with regSel := 0 }).portIn.regSel = 0 ∧
    26 ≤ (ports (at_ 5 0 7 0) { go with regSel := 26 }).portIn.regSel.toNat ∧
    (ports (at_ 5 0 7 0) { go with regSel := 26 }).driver = { go with regSel := 26 } :: [] ∧ go.regWe = false := by decide
theorem witness_HandledTellsWhoExecutes :
    (of [0x6400000000000000000000000000000005] go).currentInstr? = some (.mod 0 (.imm 5)) ∧
    (of [0x6400000000000000000000000000000005] go).run = .running ∧
    (of [0x6400000000000000000000000000000005] go).value (.imm 5) ≠ 0 ∧
    (of [0x6400000000000000000000000000000005] go).portOut.handled = some true ∧
    (of [0x6400000000000000000000000000000000] wait).currentInstr? = some (.mod 0 (.imm 0)) ∧
    (of [0x6400000000000000000000000000000000] wait).stepEnabled = false ∧
    (of [0x3400000000000000000000000000000002] wait).currentInstr? = some (.add 0 (.imm 2)) ∧
    (atRcv go).currentInstr? = some (.rcv 25) ∧ (atRcv go).run = .running := by decide
theorem witness_FetchOutsideTheProgramStops : (at_ 5 5 0 0).progLen.toNat ≤ (at_ 5 5 0 0).pc.toNat ∧
    (at_ 5 5 0 0).run = .running ∧ (at_ 5 5 0 0).fault = none ∧ (at_ 5 5 0 0).portIn.rst = false ∧
    (at_ 5 5 0 0).portIn.go = true := by decide
theorem witness_EveryStepKeepsTheInvariant : (at_ 9 3 1 0).Inv ∧ ∃ t, step (at_ 9 3 1 0) = .next t := ⟨inv_running, _, rfl⟩
theorem witness_StepNeverStopsUnderTheInvariant : (at_ 9 3 1 0).Inv := inv_running
theorem witness_PlacedWordIsTheNextToRun : State.reset.imem.wf ∧
    decodeTableWord 136 0x9000000000000000190000000000000000 = some (.rcv 25) := by decide

end Sys2Proof.Tests
end

section
/-! SUPPORT. The narrowing and the remainder of 00_scope.md R7 and R8, what `mod` leaves in its destination, and the statements
about them. -/

namespace Sys2Proof.Machine

/-! ### The narrowing (00_scope.md R7) -/

/-- The narrowed pattern, read as a signed number, is the formula of R7. -/
@[simp] theorem toInt_wrap64 (n : Int) : (wrap64 n).toInt = wrapInt n := by
  simp only [wrap64, wrapInt, BitVec.toInt_ofInt, Int.bmod_def]
  omega

theorem wrapInt_of_mem_range {n : Int} (hmin : Config.minInt ≤ n) (hmax : n ≤ Config.maxInt) : wrapInt n = n := by
  unfold wrapInt
  unfold Config.minInt at hmin
  unfold Config.maxInt at hmax
  omega

/-- Narrowing the value of a register gives the register back. -/
@[simp] theorem wrap64_toInt (v : Word) : wrap64 v.toInt = v := BitVec.ofInt_toInt

/-- Settles O11: the bit pattern is R7's balanced residue, and a balanced residue of a number in range is the number. -/
theorem wrapFollowsTheFormula : Obligations.WrapFollowsTheFormula := fun n =>
  ⟨toInt_wrap64 n, fun hmin hmax => (toInt_wrap64 n).trans (wrapInt_of_mem_range hmin hmax)⟩

/-! ### The remainder (00_scope.md R8) -/

/-- R8's remainder is the truncating one of the library. -/
theorem trem_eq_tmod (a b : Int) : trem a b = a.tmod b := (Int.tmod_def a b).symm

/-- The remainder of two register values fits a register: it is the signed remainder of the patterns. -/
theorem wrap64_trem (d v : Word) : wrap64 (trem d.toInt v.toInt) = d.srem v := by
  rw [trem_eq_tmod, ← BitVec.toInt_srem, wrap64_toInt]

/-- A remainder other than 0 is positive exactly when the dividend is. -/
theorem tmod_pos_iff {a b : Int} (h : a.tmod b ≠ 0) : 0 < a.tmod b ↔ 0 < a := by
  have hsign : (a.tmod b).sign = a.sign := by
    rw [Int.sign_tmod, if_neg (mt Int.tmod_eq_zero_of_dvd h)]
  rw [← Int.sign_eq_one_iff_pos, hsign, Int.sign_eq_one_iff_pos]

theorem natAbs_tmod_lt (a : Int) {b : Int} (h : b ≠ 0) : (a.tmod b).natAbs < b.natAbs := by
  rw [Int.natAbs_tmod]
  exact Nat.mod_lt _ (Int.natAbs_pos.2 h)

/-! ### What `mod` leaves in its destination (40_register_alu.md R105) -/

/-- An operand whose register exists evaluates to its value. -/
theorem State.eval?_eq_value (s : State) {x : Operand} (h : x.wf = true) : s.eval? x = some (s.value x) := by
  cases x with
  | reg r => exact State.getReg?_of_regOk h
  | imm n => rfl

/-- The write at the end of a step is in the destination of the next state. -/
theorem State.readPort_of_writeBack {s t : State} {rd : Reg} {v : Word} (hrd : regOk rd = true)
    (h : s.writeBack rd v = .next t) : t.readPort rd = v := by
  obtain ⟨-, rfl⟩ := State.goto_eq_next_iff.1 h
  exact s.readPort_setReg_self hrd v

/-- `mod` with a divisor other than 0 writes back the signed remainder of the operands' patterns. -/
theorem exec_mod_of_ne_zero {s : State} {rd : Reg} {x : Operand} (hrd : regOk rd = true) (hx : x.wf = true)
    (hv : s.value x ≠ 0) : exec (.mod rd x) s = s.writeBack rd ((s.readPort rd).srem (s.value x)) := by
  simp only [exec, execMod, State.withReg_of_regOk hrd, State.withOperand_of_some (s.eval?_eq_value hx), if_neg hv, wrap64_trem]

/-- Settles O13: the destination holds the truncating remainder, whose sign and size the library states and which the truncating
quotient completes to the dividend. -/
theorem remainderFollowsTheDividend : Obligations.RemainderFollowsTheDividend := by
  intro rd x s t hwf hv h
  obtain ⟨hrd, hx⟩ : regOk rd = true ∧ x.wf = true := by simpa [Instr.wf] using hwf
  rw [exec_mod_of_ne_zero hrd hx hv] at h
  have hr : (t.readPort rd).toInt = (s.readPort rd).toInt.tmod (s.value x).toInt := by
    rw [State.readPort_of_writeBack hrd h, BitVec.toInt_srem]
  have hb : (s.value x).toInt ≠ 0 := fun h0 => hv (BitVec.eq_of_toInt_eq h0)
  rw [hr]
  exact ⟨tmod_pos_iff, natAbs_tmod_lt _ hb, _, (Int.mul_tdiv_add_tmod _ _).symm⟩

end Sys2Proof.Machine
end

section
/-! SUPPORT. The register file's read and write law, what an instruction writes and where it goes, and the invariant of
10_state.md R36 along every clock edge, with the statements about them. -/

namespace Sys2Proof.Machine

/-! ### Registers (10_state.md R22, R24) -/

/-- Settles O3, by the read-after-write law of the register file. -/
theorem registerReadsBackWhatWasWritten : Obligations.RegisterReadsBackWhatWasWritten := by
  intro s r v hr
  refine ⟨by simp [State.getReg?_setReg, hr], fun q hq => ?_, rfl, rfl, rfl⟩
  simp [State.getReg?_setReg, hq.symm]

theorem SameRegsBut.refl (changed : Reg → Prop) (s : State) : SameRegsBut changed s s := fun _ _ => rfl

/-- A write to a register that may change leaves every other register as it was. -/
theorem SameRegsBut.setReg {changed : Reg → Prop} {rd : Reg} (h : changed rd) (s : State) (v : Word) :
    SameRegsBut changed s (s.setReg rd v) :=
  fun _ hq => s.readPort_setReg_ne (by rintro rfl; exact hq h) v

theorem SameRegsBut.emit {changed : Reg → Prop} {s u : State} (h : SameRegsBut changed s u) (e : Event) :
    SameRegsBut changed s (u.emit e) := h

/-! ### What every instruction answers

A property of outcomes holds of everything `exec` can answer once it holds of the few forms an answer can take. -/

section Outcomes
variable {P : Out → Prop} {s : State}

theorem State.withReg_rule {r : Reg} {k : Word → Out} (raised : ∀ c, P (.next (s.raise c))) (hk : ∀ d, P (k d)) :
    P (s.withReg r k) := by
  obtain ⟨-, he⟩ | ⟨-, he⟩ := s.withReg_cases r k <;> rw [he]
  · exact hk _
  · exact raised _

theorem State.withOperand_rule {x : Operand} {k : Word → Out} (raised : ∀ c, P (.next (s.raise c)))
    (hk : ∀ v, P (k v)) : P (s.withOperand x k) := by
  obtain ⟨v, -, he⟩ | ⟨-, he⟩ := s.withOperand_cases x k <;> rw [he]
  · exact hk v
  · exact raised _

/-- The next pointer of a jump, taken or not, is the pc displaced by the value of a word. -/
theorem State.jumpIf_rule {x y : Operand} {cond : Int → Bool} (raised : ∀ c, P (.next (s.raise c)))
    (went : ∀ d : Word, P (s.goto (applyDisp s.pc.toNat d.toInt))) : P (s.jumpIf x y cond) := by
  refine State.withOperand_rule raised fun c => State.withOperand_rule raised fun d => ?_
  split
  · exact went d
  · exact went 1

/-- An instruction raises, holds, or writes at most its destination register and goes to the pc displaced by the value of a
word, 1 for a kind that is not a jump (41_control_transfer.md R120). -/
theorem exec_rule (i : Instr) (raised : ∀ c, P (.next (s.raise c))) (held : P (.next s))
    (went : ∀ (u : State) (d : Word), SameRegsBut (Instr.dest? i = some ·) s u →
      P (u.goto (applyDisp s.pc.toNat d.toInt))) : P (exec i s) := by
  have wrote (rd : Reg) (hd : Instr.dest? i = some rd) (v : Word) :
      SameRegsBut (Instr.dest? i = some ·) s (s.setReg rd v) := .setReg hd s v
  have wroteBack (rd : Reg) (hd : Instr.dest? i = some rd) (v : Word) : P (s.writeBack rd v) :=
    went (s.setReg rd v) 1 (wrote rd hd v)
  cases i with
  | snd x => exact State.withOperand_rule raised fun v => went (s.emit (.send v)) 1 (.emit (.refl _ s) _)
  | set rd x => exact State.withReg_rule raised fun _ => State.withOperand_rule raised fun _ => wroteBack rd rfl _
  | add rd x => exact State.withReg_rule raised fun _ => State.withOperand_rule raised fun _ => wroteBack rd rfl _
  | sub rd x => exact State.withReg_rule raised fun _ => State.withOperand_rule raised fun _ => wroteBack rd rfl _
  | mul rd x => exact State.withReg_rule raised fun _ => State.withOperand_rule raised fun _ => wroteBack rd rfl _
  | mod rd x =>
    refine State.withReg_rule raised fun _ => State.withOperand_rule raised fun _ => ?_
    split
    · exact raised _
    · exact wroteBack rd rfl _
  | jgz x y =>
    change P (s.jumpIf x y fun c => decide (0 < c))
    exact State.jumpIf_rule raised fun d => went s d (.refl _ s)
  | jnz x y =>
    change P (s.jumpIf x y fun c => decide (c ≠ 0))
    exact State.jumpIf_rule raised fun d => went s d (.refl _ s)
  | rcv rd =>
    refine State.withReg_rule raised fun _ => ?_
    split
    · exact went ((s.setReg rd s.portIn.rcvData).emit (.recv rd s.portIn.rcvData)) 1
        ((wrote rd rfl _).emit _)
    · exact held

end Outcomes

/-- The registers of an instruction's next state, but for the destination, are those before it. -/
theorem exec_sameRegsBut_dest {i : Instr} {s t : State} (h : exec i s = .next t) :
    SameRegsBut (Instr.dest? i = some ·) s t := by
  refine exec_rule (P := fun o => o = .next t → SameRegsBut (Instr.dest? i = some ·) s t) i ?raised ?held ?went h
  case raised =>
    rintro c ⟨⟩
    exact .refl _ s
  case held =>
    rintro ⟨⟩
    exact .refl _ s
  case went =>
    intro u d hu hgo
    obtain ⟨-, rfl⟩ := State.goto_eq_next_iff.1 hgo
    exact hu

/-- Settles O4: a register outside the frame of `exec` is the destination. -/
theorem onlyTheDestinationRegisterChanges : Obligations.OnlyTheDestinationRegisterChanges :=
  fun _ _ _ r h hne => by_contra fun hd => hne (exec_sameRegsBut_dest h r hd)

/-- From an address of a Program every instruction answers a next state: the next pointer fits 64 bits. -/
theorem exec_answers_next (i : Instr) {s : State} (hpc : s.pc.toNat < Config.maxLen) : ∃ t, exec i s = .next t :=
  exec_rule (P := fun o => ∃ t, o = .next t) i (fun _ => ⟨_, rfl⟩) ⟨_, rfl⟩
    fun u d _ => ⟨_, u.goto_of_lt (applyDisp_lt hpc d)⟩

/-! ### The run state a step leaves (43_sequencer.md R151) -/

theorem runAt_eq_running_iff {s : State} {n : Nat} :
    runAt s n = .running ↔ n < s.progLen.toNat ∧ n ≠ Config.sentinel := by
  simp [runAt]

/-- The sentinel lies above every Program, so for a length within `MAXLEN` it needs no case of its own. -/
theorem runAt_eq_halted_iff {s : State} {n : Nat} (hlen : s.progLen.toNat ≤ Config.maxLen) :
    runAt s n = .halted ↔ s.progLen.toNat ≤ n := by
  have hsent : Config.maxLen ≤ Config.sentinel := by decide
  by_cases hn : n < s.progLen.toNat
  · have hne : n ≠ Config.sentinel := by omega
    simp [runAt, hn, hne]
  · simp [runAt, hn, Nat.le_of_not_lt hn]

/-! ### The invariant (10_state.md R36) -/

/-- Settles O51: nothing is loaded, so the halted core stands at the end of its empty Program. -/
theorem invariantHoldsAtReset : Obligations.InvariantHoldsAtReset where
  lenOk := Nat.zero_le _
  imageOk := Memory.wf_nil
  running := nofun
  halted _ := Nat.le_refl 0
  faulted := nofun
  sentinel _ := rfl

section Invariant
variable {s : State} (h : s.Inv)
include h

/-- The ports are no part of the invariant. -/
theorem State.Inv.endEdge : s.endEdge.Inv := { h with }

/-- The registers are no part of the invariant but by their type (R36 (a)). -/
theorem State.Inv.setReg (r : Reg) (v : Word) : (s.setReg r v).Inv := { h with }

theorem State.Inv.driverWrite : s.driverWrite.Inv := by
  unfold State.driverWrite
  split
  · exact h.setReg _ _
  · exact h

theorem State.Inv.applyReset : s.applyReset.Inv where
  lenOk := h.lenOk
  imageOk := h.imageOk
  running hrun := by
    have hne : s.progLen ≠ 0 := fun h0 => by simp [h0] at hrun
    exact Nat.pos_of_ne_zero fun h0 => hne (BitVec.eq_of_toNat_eq h0)
  halted hrun := by
    have h0 : s.progLen = 0 := by_contra fun hne => by
      rw [State.applyReset_run, if_neg hne] at hrun
      cases hrun
    simp [h0]
  faulted := nofun
  sentinel hpc := by simp at hpc

/-- A fault is recorded at the pc of a running core (R36 (d)). -/
theorem State.Inv.raise (hrun : s.run = .running) (c : Cause) : (s.raise c).Inv where
  __ := h
  faulted := by
    rintro f ⟨⟩
    exact ⟨hrun, rfl⟩

/-- The run state is set from the next pointer, so a step that ends in a `goto` restores the invariant whatever the pointer. -/
theorem State.Inv.went (hfault : s.fault = none) {u : State} (hu : OnlyRegsAndTrace s u) {n : Nat} (hn : n < 2 ^ 64) :
    State.Inv { u with pc := BitVec.ofNat 64 n, run := runAt u n } := by
  have hlen : u.progLen.toNat ≤ Config.maxLen := by
    rw [hu.progLen]
    exact h.lenOk
  have hpc : (BitVec.ofNat 64 n).toNat = n := (BitVec.toNat_ofNat n 64).trans <| Nat.mod_eq_of_lt hn
  constructor
  case lenOk => exact hlen
  case imageOk =>
    rw [hu.imem]
    exact h.imageOk
  case running =>
    intro hrun
    exact hpc.symm ▸ (runAt_eq_running_iff.1 hrun).1
  case halted =>
    intro hrun
    exact hpc.symm ▸ (runAt_eq_halted_iff hlen).1 hrun
  case faulted =>
    intro f hf
    rw [hu.fault, hfault] at hf
    cases hf
  case sentinel =>
    intro hs
    have hsent : Config.maxLen ≤ n := by
      rw [← hpc, hs]
      decide
    exact (runAt_eq_halted_iff hlen).2 (hlen.trans hsent)

theorem State.Inv.exec {i : Instr} {t : State} (hrun : s.run = .running) (hfault : s.fault = none)
    (ht : Machine.exec i s = .next t) : t.Inv := by
  obtain ⟨-, rfl⟩ | ⟨-, rfl⟩ | ⟨-, -, rfl⟩ | ⟨u, n, hu, hn, rfl⟩ := exec_next_cases ht
  · exact h.raise hrun _
  · exact h.raise hrun _
  · exact h
  · exact h.went hfault hu hn

theorem State.Inv.coreEdge {t : State} (ht : s.coreEdge = .next t) : t.Inv := by
  obtain ⟨-, he⟩ | ⟨-, -, he⟩ | ⟨hen, ⟨-, he⟩ | ⟨c, he⟩ | ⟨i, -, he⟩⟩ := s.coreEdge_cases <;> rw [he] at ht
  · cases ht
    exact h.applyReset
  · cases ht
    exact h.driverWrite
  · cases ht
  · cases ht
    exact h.raise (State.active_of_stepEnabled hen).1 c
  · obtain ⟨hrun, hfault⟩ := State.active_of_stepEnabled hen
    exact h.exec hrun hfault ht

/-- The fetch of a running core finds a word: the pc is inside the Program (R36 (b); 43_sequencer.md R154). -/
theorem State.Inv.fetch_ne_none (hrun : s.run = .running) : s.fetch ≠ none := by
  simp [State.fetch, h.running hrun]

theorem State.Inv.coreEdge_answers_next : ∃ t, s.coreEdge = .next t := by
  obtain ⟨-, he⟩ | ⟨-, -, he⟩ | ⟨hen, ⟨hf, -⟩ | ⟨c, he⟩ | ⟨i, -, he⟩⟩ := s.coreEdge_cases
  · exact ⟨_, he⟩
  · exact ⟨_, he⟩
  · exact absurd hf (h.fetch_ne_none (State.active_of_stepEnabled hen).1)
  · exact ⟨_, he⟩
  · have hpc := h.running (State.active_of_stepEnabled hen).1
    exact he ▸ exec_answers_next i (hpc.trans_le h.lenOk)

end Invariant

/-- Settles O52: each thing an edge can do to the core keeps the invariant, and using up the ports keeps it too. -/
theorem everyStepKeepsTheInvariant : Obligations.EveryStepKeepsTheInvariant := by
  intro s t h hstep
  obtain ⟨u, hu, rfl⟩ := mapNext_eq_next_iff.1 hstep
  exact (h.coreEdge hu).endEdge

/-- Settles O53: a running core fetches inside the Program, and from there no next pointer overflows. -/
theorem stepNeverStopsUnderTheInvariant : Obligations.StepNeverStopsUnderTheInvariant := by
  intro s h
  obtain ⟨u, hu⟩ := h.coreEdge_answers_next
  exact ⟨u.endEdge, mapNext_eq_next_iff.2 ⟨u, hu, rfl⟩⟩

end Sys2Proof.Machine
end

section
/-! SUPPORT. The instruction space of 20_memory.md: the stored image of a word, its decoding from bytes, and the Program along
every clock edge, with the statements about them. -/

namespace Sys2Proof.Machine

/-! ### The stored image (20_memory.md R43) -/

section WrittenWord
variable {m : Memory} (h : m.wf) (a : Nat) (w : InstrWord)
include h

/-- Byte `k` of a stored word, counted from the most significant. -/
theorem Memory.read_writeWord_add {k : Nat} (hk : k < 17) :
    (m.writeWord a w).read (17 * a + k) = w.extractLsb' (128 - 8 * k) 8 := by
  have hin : 17 * a ≤ 17 * a + k ∧ 17 * a + k < 17 * a + 17 := by omega
  rw [Memory.read_writeWord h, if_pos hin, Nat.add_sub_cancel_left]

/-- Storing a word leaves the bytes of every other instruction address as they were. -/
theorem Memory.read_writeWord_outside {q : Nat} (hq : q < 17 * a ∨ 17 * a + 17 ≤ q) :
    (m.writeWord a w).read q = m.read q := by
  have hout : ¬ (17 * a ≤ q ∧ q < 17 * a + 17) := by omega
  rw [Memory.read_writeWord h, if_neg hout]

theorem Memory.readWord_writeWord_self : (m.writeWord a w).readWord a = w := by
  rw [Memory.readWord_writeWord h, if_pos rfl]

end WrittenWord

/-- The byte decoder takes the bytes of one word off the front and decodes the word they spell. -/
theorem decodeBytes_bytesOfWord_append (w : InstrWord) (rest : List Byte) :
    decodeBytes (bytesOfWord w ++ rest) = .decoded (decodeWord w) rest := by
  have henough : ¬ (bytesOfWord w ++ rest).length < Config.wordBytes := by simp
  have htake : (bytesOfWord w ++ rest).take Config.wordBytes = bytesOfWord w :=
    List.take_left' (bytesOfWord_length w)
  have hdrop : (bytesOfWord w ++ rest).drop Config.wordBytes = rest := List.drop_left' (bytesOfWord_length w)
  rw [decodeBytes, if_neg henough, htake, hdrop, wordOfBytes_bytesOfWord]

/-- Settles O30, from the read-after-write law of a stored word and the inverse laws of its bytes. -/
theorem storedImageByteOrder : Obligations.StoredImageByteOrder := fun _ a w h =>
  ⟨fun _ => Memory.read_writeWord_add h a w, fun _ => Memory.read_writeWord_outside h a w,
    Memory.readWord_writeWord_self h a w, Memory.wf_writeWord h a w, decodeBytes_bytesOfWord_append w⟩

/-! ### The Program along a clock edge (20_memory.md R51) -/

/-- No instruction writes the image or the program length: each way of ending touches other fields. -/
theorem exec_keeps_program {i : Instr} {s t : State} (h : exec i s = .next t) :
    t.imem = s.imem ∧ t.progLen = s.progLen := by
  obtain ⟨-, rfl⟩ | ⟨-, rfl⟩ | ⟨-, -, rfl⟩ | ⟨u, n, hu, -, rfl⟩ := exec_next_cases h
  · exact ⟨rfl, rfl⟩
  · exact ⟨rfl, rfl⟩
  · exact ⟨rfl, rfl⟩
  · exact ⟨hu.imem, hu.progLen⟩

/-- Reset, the driver's write and a fault entry keep the Program as every instruction does. -/
theorem State.coreEdge_keeps_program {s t : State} (h : s.coreEdge = .next t) :
    t.imem = s.imem ∧ t.progLen = s.progLen := by
  obtain ⟨-, he⟩ | ⟨-, -, he⟩ | ⟨-, ⟨-, he⟩ | ⟨c, he⟩ | ⟨i, -, he⟩⟩ := s.coreEdge_cases <;> rw [he] at h
  · cases h
    exact ⟨s.applyReset_imem, s.applyReset_progLen⟩
  · cases h
    exact ⟨s.driverWrite_imem, s.driverWrite_progLen⟩
  · cases h
  · cases h
    exact ⟨s.raise_imem c, s.raise_progLen c⟩
  · exact exec_keeps_program h

/-- Settles O45: what the edge does to the core keeps the Program, and using up the ports touches the driver only. -/
theorem noStepChangesTheProgram : Obligations.NoStepChangesTheProgram := by
  intro s t hstep
  obtain ⟨u, hu, rfl⟩ := mapNext_eq_next_iff.1 hstep
  rw [State.endEdge_imem, State.endEdge_progLen]
  exact State.coreEdge_keeps_program hu

end Sys2Proof.Machine
end

section
/-! SUPPORT. The binary instruction word of 30_encoding.md section 3: what the decoder answers, in the fields and in the bits of
the word, and its inverse, with the statements about them. -/

namespace Sys2Proof

/-! ### What the decoder answers (R77) -/

/-- R77 without its order of tests: when each answer is the one for the fields. -/
def Fields.Answers (f : Fields) : DecodeResult → Prop
  | .illegal => f.rsv ≠ 0 ∨ kindOfOp f.op = none ∨ ∃ k, kindOfOp f.op = some k ∧ illegalForm k.format f = true
  | .badRegister =>
    f.rsv = 0 ∧ ∃ k, kindOfOp f.op = some k ∧ illegalForm k.format f = false ∧ badRegisterForm k.format f = true
  | .instr i =>
    f.rsv = 0 ∧ ∃ k, kindOfOp f.op = some k ∧ illegalForm k.format f = false ∧ badRegisterForm k.format f = false ∧
      buildInstr k (operandOf f.am f.a) (operandOf f.bm f.b) (payloadReg f.a) = i

theorem decodeFields_eq_iff {f : Fields} {r : DecodeResult} : decodeFields f = r ↔ f.Answers r := by
  unfold decodeFields
  by_cases hrsv : f.rsv = 0#2
  · cases hk : kindOfOp f.op with
    | none => cases r <;> simp [Fields.Answers, hrsv, hk]
    | some k =>
      cases hi : illegalForm k.format f <;> cases hb : badRegisterForm k.format f <;> cases r <;>
        simp [Fields.Answers, hrsv, hk, hi, hb]
  · cases r <;> simp [Fields.Answers, hrsv]

section Forms
variable {fmt : Format} {f : Fields}

theorem illegalForm_eq_false_iff :
    illegalForm fmt f = false ↔
      (fmt.destA = true → f.am = false) ∧ (fmt.usedB = false → f.bm = false ∧ f.b = 0) ∧
        (f.am = false → payloadHigh f.a = 0) ∧ (fmt.usedB = true → f.bm = false → payloadHigh f.b = 0) := by
  simp only [illegalForm]
  grind

theorem badRegisterForm_eq_false_iff :
    badRegisterForm fmt f = false ↔
      (f.am = false → regOk (payloadReg f.a) = true) ∧
        (fmt.usedB = true → f.bm = false → regOk (payloadReg f.b) = true) := by
  simp only [badRegisterForm]
  grind

end Forms

/-! ### Operands and their payloads (R75) -/

theorem payloadHigh_operandPayload {x : Operand} (h : (operandPayload x).1 = false) :
    payloadHigh (operandPayload x).2 = 0 := by
  cases x with
  | reg r => exact payloadHigh_setWidth r
  | imm n => cases h

theorem regOk_operandPayload {x : Operand} (hx : x.wf = true) (h : (operandPayload x).1 = false) :
    regOk (payloadReg (operandPayload x).2) = true := by
  cases x with
  | reg r => exact (congrArg regOk (payloadReg_setWidth r)).trans hx
  | imm n => cases h

theorem operandOf_wf {md : Bool} {p : Word} (h : md = false → regOk (payloadReg p) = true) :
    (operandOf md p).wf = true := by
  cases md with
  | false => exact h rfl
  | true => rfl

/-- A legal payload is the payload of the operand it stands for. -/
theorem operandPayload_operandOf {md : Bool} {p : Word} (h : md = false → payloadHigh p = 0) :
    operandPayload (operandOf md p) = (md, p) := by
  cases md with
  | false => exact congrArg (Prod.mk false) (setWidth_payloadReg (h rfl))
  | true => rfl

/-! ### Every format as two operands (R73)

A destination is a register operand, and an unused operand is the zero payload in register mode, which is that of register 0.
So every instruction is encoded as format `XY` encodes its two operands. -/

/-- Operand A of the instruction's word. -/
def Instr.opA : Instr → Operand
  | .snd x | .jgz x _ | .jnz x _ => x
  | .set rd _ | .add rd _ | .sub rd _ | .mul rd _ | .mod rd _ | .rcv rd => .reg rd

/-- Operand B of the instruction's word. -/
def Instr.opB : Instr → Operand
  | .set _ x | .add _ x | .sub _ x | .mul _ x | .mod _ x | .jgz _ x | .jnz _ x => x
  | .snd _ | .rcv _ => .reg 0

theorem encodeFields_eq_fieldsXY (i : Instr) : encodeFields i = fieldsXY i.kind i.opA i.opB := by cases i <;> rfl

theorem Instr.wf_eq (i : Instr) : i.wf = (i.opA.wf && i.opB.wf) := by
  cases i <;> simp [Instr.wf, Instr.opA, Instr.opB, Operand.wf, regOk]

/-- The mode and the payload of operand B are zero in a format that does not use it. -/
theorem Instr.opB_of_not_usedB {i : Instr} (h : i.kind.format.usedB = false) : i.opB = .reg 0 := by
  cases i <;> simp_all [Instr.opB, Instr.kind, Kind.format, Format.usedB]

/-- The mode of a destination is register mode. -/
theorem Instr.opA_of_destA {i : Instr} (h : i.kind.format.destA = true) : (operandPayload i.opA).1 = false := by
  cases i <;> simp_all [Instr.opA, Instr.kind, Kind.format, Format.destA, operandPayload]

theorem buildInstr_kind_opA_opB (i : Instr) :
    buildInstr i.kind i.opA i.opB (payloadReg (operandPayload i.opA).2) = i := by
  cases i <;> simp [buildInstr, Instr.kind, Instr.opA, Instr.opB, operandPayload, payloadReg_setWidth]

section Build
variable {k : Kind} {A B : Operand} {rA : Reg}

@[simp] theorem kind_buildInstr : (buildInstr k A B rA).kind = k := by cases k <;> rfl

theorem opA_buildInstr (h : k.format.destA = true → A = .reg rA) : (buildInstr k A B rA).opA = A := by
  cases k <;> simp_all [buildInstr, Instr.opA, Kind.format, Format.destA]

theorem opB_buildInstr (h : k.format.usedB = false → B = .reg 0) : (buildInstr k A B rA).opB = B := by
  cases k <;> simp_all [buildInstr, Instr.opB, Kind.format, Format.usedB]

end Build

/-! ### Encoding and decoding are inverse (R80) -/

/-- The decoder is the inverse of the encoder, on fields. -/
theorem decodeFields_encodeFields {i : Instr} (hwf : i.wf = true) : decodeFields (encodeFields i) = .instr i := by
  obtain ⟨hA, hB⟩ : i.opA.wf = true ∧ i.opB.wf = true := by simpa [Instr.wf_eq] using hwf
  rw [encodeFields_eq_fieldsXY]
  refine decodeFields_eq_iff.2 ⟨rfl, i.kind, kindOfOp_op _, illegalForm_eq_false_iff.2 ?_,
    badRegisterForm_eq_false_iff.2 ⟨regOk_operandPayload hA, fun _ => regOk_operandPayload hB⟩, ?_⟩
  · refine ⟨Instr.opA_of_destA, fun h => ?_, payloadHigh_operandPayload, fun _ => payloadHigh_operandPayload⟩
    simp [fieldsXY, Instr.opB_of_not_usedB h, operandPayload]
  · simp only [fieldsXY, operandOf_operandPayload, buildInstr_kind_opA_opB]

/-- A decoded instruction is well-formed and its fields are the decoded ones: the tests of R77 leave no field free. -/
theorem encodeFields_of_decodeFields {f : Fields} {i : Instr} (h : decodeFields f = .instr i) :
    i.wf = true ∧ encodeFields i = f := by
  obtain ⟨hrsv, k, hk, hlegal, hgood, hi⟩ := decodeFields_eq_iff.1 h
  obtain ⟨hdest, hunused, hhighA, hhighB⟩ := illegalForm_eq_false_iff.1 hlegal
  obtain ⟨hregA, hregB⟩ := badRegisterForm_eq_false_iff.1 hgood
  have hb : f.bm = false → payloadHigh f.b = 0 ∧ regOk (payloadReg f.b) = true := by
    cases hu : k.format.usedB with
    | false => rw [(hunused hu).2]; exact fun _ => by decide
    | true => exact fun hbm => ⟨hhighB hu hbm, hregB hu hbm⟩
  have hkind : i.kind = k := by rw [← hi, kind_buildInstr]
  have hA : i.opA = operandOf f.am f.a := by
    rw [← hi]
    exact opA_buildInstr fun hd => by rw [operandOf, hdest hd]; rfl
  have hB : i.opB = operandOf f.bm f.b := by
    rw [← hi]
    exact opB_buildInstr fun hu => by rw [operandOf, (hunused hu).1, (hunused hu).2]; rfl
  constructor
  · rw [Instr.wf_eq, hA, hB, operandOf_wf hregA, operandOf_wf fun hbm => (hb hbm).2]
    rfl
  · rw [encodeFields_eq_fieldsXY, hkind, hA, hB, fieldsXY, operandPayload_operandOf hhighA,
      operandPayload_operandOf fun hbm => (hb hbm).1, op_of_kindOfOp hk, ← hrsv]

/-- Settles O26, from the same two laws on fields and from the fields of a word being the word. -/
theorem encodeAndDecodeAreInverse : Obligations.EncodeAndDecodeAreInverse := by
  refine ⟨fun i hwf => ?_, fun w i h => ?_⟩
  · rw [decodeWord, encodeWord, splitWord_joinWord, decodeFields_encodeFields hwf]
  · obtain ⟨hwf, hfields⟩ := encodeFields_of_decodeFields h
    exact ⟨hwf, by rw [encodeWord, hfields, joinWord_splitWord]⟩

/-- Settles O29: the decoder evaluated on each word. -/
theorem specWordsDecode : Obligations.SpecWordsDecode := by
  unfold Obligations.SpecWordsDecode
  decide

/-! ### Reserved encodings in the bits of the word (R78) -/

theorem payloadHigh_ne_zero_iff {p : Word} : payloadHigh p ≠ 0 ↔ 32 ≤ p.toNat := by
  rw [Ne, ← BitVec.toNat_inj]
  simp only [payloadHigh, BitVec.extractLsb'_toNat, Nat.shiftRight_eq_div_pow]
  change ¬ p.toNat / 2 ^ 5 % 2 ^ 59 = 0 ↔ _
  omega

theorem regOk_payloadReg_eq_false_iff {p : Word} : regOk (payloadReg p) = false ↔ 26 ≤ p.toNat % 32 := by
  rw [regOk, decide_eq_false_iff_not]
  simp [payloadReg]

/-- Opcodes 0 and 10 to 15 are no instruction (R74). -/
theorem kindOfOp_eq_none_iff {op : BitVec 4} : kindOfOp op = none ↔ op.toNat = 0 ∨ 10 ≤ op.toNat := by
  revert op; decide

section OpcodeFormat
variable {op : BitVec 4} {k : Kind} (hk : kindOfOp op = some k)
include hk

/-- The opcodes of formats `RX` and `R` (R73, R74). -/
theorem destA_iff_of_kindOfOp : k.format.destA = true ↔ 2 ≤ op.toNat ∧ op.toNat ≤ 6 ∨ op.toNat = 9 := by
  rw [← op_of_kindOfOp hk]; cases k <;> decide

/-- The opcodes of formats `RX` and `XY` (R73, R74). -/
theorem usedB_iff_of_kindOfOp : k.format.usedB = true ↔ 2 ≤ op.toNat ∧ op.toNat ≤ 8 := by
  rw [← op_of_kindOfOp hk]; cases k <;> decide

/-- The opcodes of formats `S` and `R` (R73, R74). -/
theorem not_usedB_iff_of_kindOfOp : k.format.usedB = false ↔ op.toNat = 1 ∨ op.toNat = 9 := by
  rw [← op_of_kindOfOp hk]; cases k <;> decide

end OpcodeFormat

theorem illegalForm_iff {fmt : Format} {f : Fields} :
    illegalForm fmt f = true ↔
      fmt.destA = true ∧ f.am = true ∨ fmt.usedB = false ∧ (f.bm = true ∨ f.b.toNat ≠ 0) ∨
        f.am = false ∧ 32 ≤ f.a.toNat ∨ fmt.usedB = true ∧ f.bm = false ∧ 32 ≤ f.b.toNat := by
  have hb : f.b ≠ 0 ↔ f.b.toNat ≠ 0 := by rw [Ne, ← BitVec.toNat_inj]; rfl
  simp only [illegalForm, Bool.or_eq_true, Bool.and_eq_true, Bool.not_eq_true', bne_iff_ne, payloadHigh_ne_zero_iff, hb,
    or_assoc, and_assoc]

theorem badRegisterForm_iff {fmt : Format} {f : Fields} :
    badRegisterForm fmt f = true ↔
      f.am = false ∧ 26 ≤ f.a.toNat % 32 ∨ fmt.usedB = true ∧ f.bm = false ∧ 26 ≤ f.b.toNat % 32 := by
  simp only [badRegisterForm, Bool.or_eq_true, Bool.and_eq_true, Bool.not_eq_true', regOk_payloadReg_eq_false_iff, and_assoc]

theorem decodeFields_eq_illegal_iff {f : Fields} :
    decodeFields f = .illegal ↔
      f.op.toNat = 0 ∨ 10 ≤ f.op.toNat ∨ f.rsv ≠ 0 ∨
      ((2 ≤ f.op.toNat ∧ f.op.toNat ≤ 6 ∨ f.op.toNat = 9) ∧ f.am = true) ∨
      ((f.op.toNat = 1 ∨ f.op.toNat = 9) ∧ (f.bm = true ∨ f.b.toNat ≠ 0)) ∨
      (f.am = false ∧ 32 ≤ f.a.toNat) ∨
      ((2 ≤ f.op.toNat ∧ f.op.toNat ≤ 8) ∧ f.bm = false ∧ 32 ≤ f.b.toNat) := by
  rw [decodeFields_eq_iff, ← or_assoc, ← kindOfOp_eq_none_iff]
  cases hk : kindOfOp f.op with
  | none => simp [Fields.Answers, hk]
  | some k =>
    simp only [Fields.Answers, hk, Option.some.injEq, exists_eq_left', illegalForm_iff, destA_iff_of_kindOfOp hk,
      usedB_iff_of_kindOfOp hk, not_usedB_iff_of_kindOfOp hk, reduceCtorEq, false_or]

theorem decodeFields_eq_badRegister_iff {f : Fields} :
    decodeFields f = .badRegister ↔
      decodeFields f ≠ .illegal ∧ ((f.am = false ∧ 26 ≤ f.a.toNat % 32) ∨
        ((2 ≤ f.op.toNat ∧ f.op.toNat ≤ 8) ∧ f.bm = false ∧ 26 ≤ f.b.toNat % 32)) := by
  rw [Ne, decodeFields_eq_iff, decodeFields_eq_iff]
  cases hk : kindOfOp f.op with
  | none => simp [Fields.Answers, hk]
  | some k =>
    simp only [Fields.Answers, hk, Option.some.injEq, exists_eq_left', badRegisterForm_iff,
      usedB_iff_of_kindOfOp hk, reduceCtorEq, false_or, not_or, Bool.not_eq_true, not_not, and_assoc, ne_eq]

/-- Settles O27: the tests of R77, opcode by opcode, on the fields of the word. -/
theorem reservedEncodings : Obligations.ReservedEncodings := fun _ =>
  ⟨decodeFields_eq_illegal_iff, decodeFields_eq_badRegister_iff⟩

end Sys2Proof
end

section
/-! SUPPORT. The opcode table of 30_encoding.md R82 as a function of the kind and the two mode bits, and the statement that it is
the decoder. -/

namespace Sys2Proof

/-! ### Masking a word field by field -/

/-- The bitwise and, field by field. -/
def Fields.and (f g : Fields) : Fields where
  op  := f.op &&& g.op
  am  := f.am && g.am
  bm  := f.bm && g.bm
  rsv := f.rsv &&& g.rsv
  a   := f.a &&& g.a
  b   := f.b &&& g.b

theorem splitWord_and (w v : InstrWord) : splitWord (w &&& v) = (splitWord w).and (splitWord v) := by
  simp [splitWord, Fields.and, BitVec.extractLsb'_and]

/-- Masking and comparing words is masking and comparing their fields. -/
theorem and_joinWord_eq_joinWord_iff {w : InstrWord} {m p : Fields} :
    w &&& joinWord m = joinWord p ↔ (splitWord w).and m = p := by
  rw [← splitWord_joinWord m, ← splitWord_and, splitWord_joinWord m]
  constructor
  · intro h
    rw [h, splitWord_joinWord]
  · rintro rfl
    rw [joinWord_splitWord]

/-- The mask of a payload: the bits that must be zero in register mode, none in immediate mode (R75). -/
def payloadMask (md : Bool) : Word := if md then 0 else BitVec.allOnes 64 <<< 5

theorem and_payloadMask_eq_zero_iff {md : Bool} {p : Word} :
    p &&& payloadMask md = 0 ↔ (md = false → payloadHigh p = 0) := by
  cases md with
  | true => simp [payloadMask]
  | false =>
    have hp : p >>> 5 <<< 5 = 0 ↔ ¬ 32 ≤ p.toNat := by
      rw [← BitVec.toNat_inj, BitVec.toNat_shiftLeft, BitVec.toNat_ushiftRight, Nat.shiftLeft_eq, Nat.shiftRight_eq_div_pow]
      change p.toNat / 2 ^ 5 * 2 ^ 5 % 2 ^ 64 = 0 ↔ _
      omega
    rw [payloadMask, if_neg Bool.false_ne_true, ← BitVec.shiftLeft_ushiftRight, hp, ← payloadHigh_ne_zero_iff, not_not]
    simp only [true_imp_iff]

/-- The mask of payload B: all of it where the format does not use it (R73). -/
def Format.maskB (fmt : Format) (bm : Bool) : Word := if fmt.usedB then payloadMask bm else BitVec.allOnes 64

theorem Format.and_maskB_eq_zero_iff {fmt : Format} {bm : Bool} {p : Word} :
    p &&& fmt.maskB bm = 0 ↔ (fmt.usedB = false → p = 0) ∧ (fmt.usedB = true → bm = false → payloadHigh p = 0) := by
  cases hu : fmt.usedB with
  | false => rw [maskB, hu, if_neg Bool.false_ne_true, BitVec.and_allOnes]; simp
  | true => rw [maskB, hu, if_pos rfl, and_payloadMask_eq_zero_iff]; simp

/-! ### The rows of a kind (R82) -/

/-- The row of a kind in the given modes. -/
def rowOf (k : Kind) (am bm : Bool) : TableRow where
  kind    := k
  pattern := joinWord ⟨k.op, am, bm, 0, 0, 0⟩
  mask    := joinWord ⟨15, true, true, 3, payloadMask am, k.format.maskB bm⟩
  regA    := !am
  regB    := k.format.usedB && !bm

/-- The modes of operands A and B that a format allows (R73). -/
def Format.modes : Format → List (Bool × Bool)
  | .S  => [(false, false), (true, false)]
  | .RX => [(false, false), (false, true)]
  | .R  => [(false, false)]
  | .XY => [(false, false), (false, true), (true, false), (true, true)]

theorem Format.mem_modes {fmt : Format} {am bm : Bool} :
    (am, bm) ∈ fmt.modes ↔ (fmt.destA = true → am = false) ∧ (fmt.usedB = false → bm = false) := by
  revert am bm
  cases fmt <;> decide

/-- The opcode table has the rows of each kind, one for each choice of modes. -/
theorem opcodeTable_eq_flatMap :
    opcodeTable = [Kind.snd, .rcv, .set, .add, .sub, .mul, .mod, .jgz, .jnz].flatMap fun k =>
      k.format.modes.map fun m => rowOf k m.1 m.2 := by
  decide

theorem mem_opcodeTable_iff {row : TableRow} :
    row ∈ opcodeTable ↔ ∃ k am bm, (am, bm) ∈ k.format.modes ∧ rowOf k am bm = row := by
  have hall (k : Kind) : k ∈ [Kind.snd, .rcv, .set, .add, .sub, .mul, .mod, .jgz, .jnz] := by cases k <;> decide
  simp only [opcodeTable_eq_flatMap, List.mem_flatMap, hall, true_and, List.mem_map, Prod.exists]

/-- A row covers the words with its opcode and modes that have zero in the bits the format leaves no choice for. -/
theorem covers_rowOf_iff {k : Kind} {am bm : Bool} {w : InstrWord} :
    (rowOf k am bm).covers w = true ↔
      (splitWord w).op = k.op ∧ (splitWord w).am = am ∧ (splitWord w).bm = bm ∧ (splitWord w).rsv = 0 ∧
        (am = false → payloadHigh (splitWord w).a = 0) ∧ (k.format.usedB = false → (splitWord w).b = 0) ∧
        (k.format.usedB = true → bm = false → payloadHigh (splitWord w).b = 0) := by
  have hop (op : BitVec 4) : op &&& 15 = op := BitVec.and_allOnes
  have hrsv (rsv : BitVec 2) : rsv &&& 3 = rsv := BitVec.and_allOnes
  simp only [TableRow.covers, beq_iff_eq, rowOf, and_joinWord_eq_joinWord_iff, Fields.and, Fields.mk.injEq, hop, hrsv,
    Bool.and_true, and_payloadMask_eq_zero_iff, Format.and_maskB_eq_zero_iff]

/-- The constraints of a row are the register indices that its modes use. -/
theorem constraintsHold_rowOf_iff {k : Kind} {am bm : Bool} {w : InstrWord} :
    (rowOf k am bm).constraintsHold w = true ↔
      (am = false → regOk (payloadReg (splitWord w).a) = true) ∧
        (k.format.usedB = true → bm = false → regOk (payloadReg (splitWord w).b) = true) := by
  have ha : w.extractLsb' 64 5 = payloadReg (splitWord w).a := by
    ext i hi
    have : i < 64 := by omega
    simp [payloadReg, splitWord, this]
  have hb : w.extractLsb' 0 5 = payloadReg (splitWord w).b := by
    ext i hi
    simp [payloadReg, splitWord]
  rw [TableRow.constraintsHold, ha, hb]
  simp only [rowOf]
  grind

/-! ### The table is the decoder (R82) -/

theorem exists_decodeFields_of_kind_iff {f : Fields} {k : Kind} :
    (∃ i, decodeFields f = .instr i ∧ i.kind = k) ↔
      f.rsv = 0 ∧ f.op = k.op ∧ illegalForm k.format f = false ∧ badRegisterForm k.format f = false := by
  constructor
  · rintro ⟨i, h, rfl⟩
    obtain ⟨hrsv, k, hk, hlegal, hgood, rfl⟩ := decodeFields_eq_iff.1 h
    rw [kind_buildInstr]
    exact ⟨hrsv, (op_of_kindOfOp hk).symm, hlegal, hgood⟩
  · rintro ⟨hrsv, hop, hlegal, hgood⟩
    exact ⟨_, decodeFields_eq_iff.2 ⟨hrsv, k, hop ▸ kindOfOp_op k, hlegal, hgood, rfl⟩, kind_buildInstr⟩

/-- A legal word of a kind matches the row of that kind in the word's own modes. -/
theorem exists_row_of_kind_iff {w : InstrWord} {k : Kind} :
    (∃ row ∈ opcodeTable, row.kind = k ∧ row.covers w = true ∧ row.constraintsHold w = true) ↔
      (splitWord w).rsv = 0 ∧ (splitWord w).op = k.op ∧ illegalForm k.format (splitWord w) = false ∧
        badRegisterForm k.format (splitWord w) = false := by
  rw [illegalForm_eq_false_iff, badRegisterForm_eq_false_iff]
  constructor
  · rintro ⟨_, hrow, hkind, hcovers, hregs⟩
    obtain ⟨k', am, bm, hmodes, rfl⟩ := mem_opcodeTable_iff.1 hrow
    obtain rfl : k' = k := hkind
    obtain ⟨hdest, hunused⟩ := Format.mem_modes.1 hmodes
    obtain ⟨hop, rfl, rfl, hrsv, hhighA, hb, hhighB⟩ := covers_rowOf_iff.1 hcovers
    exact ⟨hrsv, hop, ⟨hdest, fun hu => ⟨hunused hu, hb hu⟩, hhighA, hhighB⟩, constraintsHold_rowOf_iff.1 hregs⟩
  · rintro ⟨hrsv, hop, ⟨hdest, hunused, hhighA, hhighB⟩, hregs⟩
    refine ⟨rowOf k (splitWord w).am (splitWord w).bm, mem_opcodeTable_iff.2 ⟨_, _, _, ?_, rfl⟩, rfl, ?_, ?_⟩
    · exact Format.mem_modes.2 ⟨hdest, fun hu => (hunused hu).1⟩
    · exact covers_rowOf_iff.2 ⟨hop, rfl, rfl, hrsv, hhighA, fun hu => (hunused hu).2, hhighB⟩
    · exact constraintsHold_rowOf_iff.2 hregs

/-- Rows whose patterns differ where both masks look cover no word together. -/
theorem TableRow.not_covers_both {p q : TableRow} (h : p.pattern &&& q.mask ≠ q.pattern &&& p.mask) (w : InstrWord) :
    ¬ (p.covers w = true ∧ q.covers w = true) := by
  simp only [covers, beq_iff_eq]
  rintro ⟨hp, hq⟩
  apply h
  rw [← hp, ← hq, BitVec.and_assoc, BitVec.and_assoc, BitVec.and_comm p.mask]

/-- Settles O28: both sides are the tests of R77 on the fields; the rows' count and the difference of every two patterns are
read off the table. -/
theorem opcodeTableIsTheDecoder : Obligations.OpcodeTableIsTheDecoder := by
  refine ⟨fun w k => exists_decodeFields_of_kind_iff.trans exists_row_of_kind_iff.symm, by decide, ?_⟩
  have hdiffer : opcodeTable.Pairwise fun p q => p.pattern &&& q.mask ≠ q.pattern &&& p.mask := by decide
  exact hdiffer.imp TableRow.not_covers_both

end Sys2Proof
end

section
/-! SUPPORT. The text form of 30_encoding.md section 2: tokens and numerals, the pieces of a rendered line, the line decoder and
the program loader, with the statements about them. -/

namespace Sys2Proof.Machine

/-! ### Register tokens (R64) -/

theorem toNat_letterOfReg (r : Reg) : (letterOfReg r).toNat = 97 + r.toNat := by revert r; decide

theorem isLower_letterOfReg {r : Reg} (h : regOk r = true) : isLower (letterOfReg r) = true := by
  have := regOk_iff.1 h
  rw [isLower, toNat_letterOfReg, Bool.and_eq_true, decide_eq_true_eq, decide_eq_true_eq]
  omega

theorem registerToken_letterOfReg {r : Reg} (h : regOk r = true) : registerToken [letterOfReg r] = some r := by
  rw [registerToken, if_pos (isLower_letterOfReg h), regOfLetter, toNat_letterOfReg, Nat.add_sub_cancel_left,
    BitVec.ofNat_toNat, BitVec.setWidth_eq]

theorem registerToken_eq_some_iff {t : Text} {r : Reg} :
    registerToken t = some r ↔ ∃ c, t = [c] ∧ isLower c = true ∧ regOfLetter c = r := by
  unfold registerToken
  split
  · next c => simp
  · next h => simpa using fun c hc => absurd hc (h c)

theorem regOk_of_registerToken {t : Text} {r : Reg} (h : registerToken t = some r) : regOk r = true := by
  obtain ⟨c, -, hc, rfl⟩ := registerToken_eq_some_iff.1 h
  obtain ⟨h97, h122⟩ : 97 ≤ c.toNat ∧ c.toNat ≤ 122 := by simpa [isLower] using hc
  rw [regOk_iff, regOfLetter, BitVec.toNat_ofNat]
  omega

/-! ### Numerals (R63, R68) -/

theorem toNat_digitChar {d : Nat} (h : d < 10) : (digitChar d).toNat = 48 + d := by
  revert d; decide

theorem isDigit_digitChar {d : Nat} (h : d < 10) : isDigit (digitChar d) = true := by
  rw [isDigit, toNat_digitChar h, Bool.and_eq_true, decide_eq_true_eq, decide_eq_true_eq]
  omega

theorem digitsValue_append (acc : Nat) (s t : Text) :
    digitsValue acc (s ++ t) = (digitsValue acc s).bind fun v => digitsValue v t := by
  induction s generalizing acc with
  | nil => rfl
  | cons c cs ih =>
    rw [List.cons_append, digitsValue, digitsValue]
    split
    · exact ih _
    · rfl

theorem digitsValue_digitChar (acc : Nat) {d : Nat} (h : d < 10) : digitsValue acc [digitChar d] = some (acc * 10 + d) := by
  rw [digitsValue, if_pos (isDigit_digitChar h), toNat_digitChar h, Nat.add_sub_cancel_left, digitsValue]

/-- The digits of a number that fits in them spell the number. -/
theorem digitsValue_decimalDigits {fuel n : Nat} (h : n < 10 ^ fuel) : digitsValue 0 (decimalDigits fuel n) = some n := by
  induction fuel generalizing n with
  | zero =>
    obtain rfl : n = 0 := by omega
    rfl
  | succ fuel ih =>
    rw [decimalDigits]
    split
    · next hn => rw [digitsValue_digitChar 0 hn, Nat.zero_mul, Nat.zero_add]
    · rw [digitsValue_append, ih (by omega), Option.bind_some, digitsValue_digitChar _ (by omega)]
      congr 1
      omega

theorem decimalDigits_ne_nil (fuel n : Nat) : decimalDigits (fuel + 1) n ≠ [] := by
  rw [decimalDigits]
  split <;> simp

theorem isDigit_of_mem_decimalDigits {c : Char} {fuel n : Nat} (h : c ∈ decimalDigits fuel n) : isDigit c = true := by
  induction fuel generalizing n with
  | zero => cases h
  | succ fuel ih =>
    rw [decimalDigits] at h
    split at h
    · next hn =>
      rw [List.mem_singleton.1 h]
      exact isDigit_digitChar hn
    · obtain h | h := List.mem_append.1 h
      · exact ih h
      · rw [List.mem_singleton.1 h]
        exact isDigit_digitChar (Nat.mod_lt _ (by omega))

theorem natToken_of_ne_nil {t : Text} (h : t ≠ []) : natToken t = digitsValue 0 t := by
  cases t with
  | nil => exact absurd rfl h
  | cons c cs => rfl

theorem natToken_decimalDigits {n : Nat} (h : n < 10 ^ 20) : natToken (decimalDigits 20 n) = some n := by
  rw [natToken_of_ne_nil (decimalDigits_ne_nil 19 n), digitsValue_decimalDigits h]

/-- A numeral without a sign spells its number as an integer: `-` is no digit. -/
theorem intToken_of_natToken {t : Text} {n : Nat} (h : natToken t = some n) : intToken t = some (n : Int) := by
  unfold intToken
  split
  · next cs => exact absurd h (by simp [natToken, digitsValue, show isDigit '-' = false by decide])
  · rw [h]
    rfl

theorem intToken_renderInt {n : Int} (h : n.natAbs < 10 ^ 20) : intToken (renderInt n) = some n := by
  unfold renderInt
  split
  · rw [intToken, natToken_decimalDigits h]
    change some (-(n.natAbs : Int)) = some n
    congr 1
    omega
  · rw [intToken_of_natToken (natToken_decimalDigits h)]
    congr 1
    omega

/-- A register value lies in the range of an immediate (00_scope.md R7). -/
theorem toInt_mem_range (v : Word) : Config.minInt ≤ v.toInt ∧ v.toInt ≤ Config.maxInt :=
  ⟨BitVec.le_toInt v, Int.le_sub_one_of_lt BitVec.toInt_lt⟩

theorem intToken_renderInt_toInt (v : Word) : intToken (renderInt v.toInt) = some v.toInt := by
  obtain ⟨hmin, hmax⟩ : -2 ^ 63 ≤ v.toInt ∧ v.toInt ≤ 2 ^ 63 - 1 := toInt_mem_range v
  exact intToken_renderInt (by omega)

theorem immediateToken_renderInt_toInt (v : Word) : immediateToken (renderInt v.toInt) = some v := by
  rw [immediateToken, intToken_renderInt_toInt]
  exact (if_pos (toInt_mem_range v)).trans (congrArg some (wrap64_toInt v))

/-! ### Operand tokens (R62) -/

theorem isDigit_of_isLower {c : Char} (h : isLower c = true) : isDigit c = false := by
  obtain ⟨h97, -⟩ : 97 ≤ c.toNat ∧ c.toNat ≤ 122 := by simpa [isLower] using h
  simp only [isDigit, Bool.and_eq_false_iff, decide_eq_false_iff_not]
  omega

/-- No integer token is a register token: a letter is no digit. -/
theorem registerToken_eq_none_of_intToken {t : Text} {n : Int} (h : intToken t = some n) : registerToken t = none := by
  by_contra hreg
  obtain ⟨r, hr⟩ := Option.ne_none_iff_exists'.1 hreg
  obtain ⟨c, rfl, hc, -⟩ := registerToken_eq_some_iff.1 hr
  have hnat : natToken [c] = none := by simp [natToken, digitsValue, isDigit_of_isLower hc]
  unfold intToken at h
  split at h
  · next hcs =>
    obtain ⟨-, rfl⟩ := List.cons_eq_cons.1 hcs
    cases h
  · rw [hnat] at h
    cases h

/-- The text of a well-formed operand is its token. -/
theorem operandToken_renderOperand {x : Operand} (h : x.wf = true) : operandToken (renderOperand x) = some x := by
  cases x with
  | reg r => rw [operandToken, resolve, renderOperand, registerToken_letterOfReg h]; rfl
  | imm v =>
    have hreg := registerToken_eq_none_of_intToken (intToken_renderInt_toInt v)
    rw [operandToken, resolve, renderOperand, hreg]
    simp only [immediateToken_renderInt_toInt]
    rfl

theorem wf_of_operandToken {t : Text} {x : Operand} (h : operandToken t = some x) : x.wf = true := by
  unfold operandToken resolve at h
  split at h
  · next r hr =>
    cases h
    exact regOk_of_registerToken hr
  · split at h <;> cases h
    rfl

/-! ### The pieces of a line (R65) -/

/-- A token: a text that is not empty and has nothing to trim or to split in it. -/
def IsToken (t : Text) : Prop := t ≠ [] ∧ ∀ c ∈ t, isBlank c = false

/-- The blanks are the codes 9, 13 and 32. -/
theorem isBlank_of_code {c : Char} (h : 32 < c.toNat) : isBlank c = false := by
  have hne (d : Char) (hd : d.toNat ≤ 32) : c ≠ d := by
    rintro rfl
    omega
  simp [isBlank, hne ' ' (by decide), hne '\t' (by decide), hne '\r' (by decide)]

theorem isBlank_of_isDigit {c : Char} (h : isDigit c = true) : isBlank c = false := by
  obtain ⟨h48, -⟩ : 48 ≤ c.toNat ∧ c.toNat ≤ 57 := by simpa [isDigit] using h
  exact isBlank_of_code (by omega)

theorem IsToken.cons {c : Char} {cs : Text} (hc : isBlank c = false) (h : ∀ d ∈ cs, isBlank d = false) : IsToken (c :: cs) :=
  ⟨List.cons_ne_nil c cs, List.forall_mem_cons.2 ⟨hc, h⟩⟩

theorem isToken_letterOfReg (r : Reg) : IsToken [letterOfReg r] :=
  .cons (isBlank_of_code (by rw [toNat_letterOfReg]; omega)) fun _ h => absurd h List.not_mem_nil

theorem isToken_renderInt (n : Int) : IsToken (renderInt n) := by
  have hdigits : ∀ c ∈ decimalDigits 20 n.natAbs, isBlank c = false :=
    fun _ h => isBlank_of_isDigit (isDigit_of_mem_decimalDigits h)
  unfold renderInt
  split
  · exact .cons (by decide) hdigits
  · exact ⟨decimalDigits_ne_nil 19 n.natAbs, hdigits⟩

theorem isToken_renderOperand (x : Operand) : IsToken (renderOperand x) := by
  cases x with
  | reg r => exact isToken_letterOfReg r
  | imm v => exact isToken_renderInt v.toInt

theorem isToken_mnemonicOf (k : Kind) : IsToken (mnemonicOf k) := by
  cases k <;> simp [IsToken, mnemonicOf, isBlank]

theorem isToken_renderArgs (i : Instr) : ∀ t ∈ renderArgs i, IsToken t := by
  cases i <;> simp [renderArgs, isToken_renderOperand, isToken_letterOfReg]

theorem splitAt_of_not_mem {sep : Char} {p : Text} (h : sep ∉ p) : splitAt sep p = [p] := by
  induction p with
  | nil => rfl
  | cons c cs ih =>
    obtain ⟨hc, hcs⟩ := List.ne_and_not_mem_of_not_mem_cons h
    rw [splitAt, if_neg (Ne.symm hc), ih hcs]

theorem splitAt_append_cons {sep : Char} {p : Text} (h : sep ∉ p) (rest : Text) :
    splitAt sep (p ++ sep :: rest) = p :: splitAt sep rest := by
  induction p with
  | nil => rw [List.nil_append, splitAt, if_pos rfl]
  | cons c cs ih =>
    obtain ⟨hc, hcs⟩ := List.ne_and_not_mem_of_not_mem_cons h
    rw [List.cons_append, splitAt, if_neg (Ne.symm hc), ih hcs]

theorem IsToken.space_not_mem {t : Text} (h : IsToken t) : ' ' ∉ t := by
  intro hmem
  cases h.2 ' ' hmem

theorem joinSpaced_eq_append (head : Text) (ts : List Text) :
    joinSpaced head ts = head ++ ts.flatMap (' ' :: ·) := by
  induction ts generalizing head with
  | nil => rw [joinSpaced, List.flatMap_nil, List.append_nil]
  | cons t ts ih => rw [joinSpaced, ih, List.flatMap_cons, List.append_assoc]

/-- The pieces of a spaced line are what was joined. -/
theorem splitAt_joinSpaced {head : Text} {ts : List Text} (hhead : IsToken head) (hts : ∀ t ∈ ts, IsToken t) :
    splitAt ' ' (joinSpaced head ts) = head :: ts := by
  rw [joinSpaced_eq_append]
  induction ts generalizing head with
  | nil => rw [List.flatMap_nil, List.append_nil, splitAt_of_not_mem hhead.space_not_mem]
  | cons t ts ih =>
    obtain ⟨ht, hts⟩ := List.forall_mem_cons.1 hts
    rw [List.flatMap_cons, List.cons_append, splitAt_append_cons hhead.space_not_mem, ih ht hts]

/-! ### Trimming (R65) -/

theorem dropWhile_isBlank_of_prefix {p t : Text} (hp : IsToken p) (h : p <+: t) : t.dropWhile isBlank = t := by
  obtain ⟨rest, rfl⟩ := h
  obtain ⟨hne, hblank⟩ := hp
  obtain ⟨c, cs, rfl⟩ := List.exists_cons_of_ne_nil hne
  exact List.dropWhile_cons_of_neg (by simp [hblank c List.mem_cons_self])

theorem IsToken.reverse {t : Text} (h : IsToken t) : IsToken t.reverse :=
  ⟨mt List.reverse_eq_nil_iff.1 h.1, fun c hc => h.2 c (List.mem_reverse.1 hc)⟩

/-- A text that begins and ends with a token has nothing to trim. -/
theorem trim_of_prefix_of_suffix {p q t : Text} (hp : IsToken p) (hpt : p <+: t) (hq : IsToken q) (hqt : q <:+ t) :
    trim t = t := by
  rw [trim, dropWhile_isBlank_of_prefix hp hpt, dropWhile_isBlank_of_prefix hq.reverse (List.reverse_prefix.2 hqt),
    List.reverse_reverse]

theorem trim_joinSpaced {head : Text} {ts : List Text} (hhead : IsToken head) (hts : ∀ t ∈ ts, IsToken t) :
    trim (joinSpaced head ts) = joinSpaced head ts := by
  rw [joinSpaced_eq_append]
  obtain rfl | ⟨init, last, rfl⟩ := List.eq_nil_or_concat ts
  · rw [List.flatMap_nil, List.append_nil]
    exact trim_of_prefix_of_suffix hhead List.prefix_rfl hhead List.suffix_rfl
  · have hlast : IsToken last := hts last (by simp)
    refine trim_of_prefix_of_suffix hhead (List.prefix_append _ _) hlast ?_
    exact ⟨head ++ init.flatMap (' ' :: ·) ++ [' '], by simp⟩

/-! ### Lines (R65 to R69) -/

theorem kindOfMnemonic_mnemonicOf (k : Kind) : kindOfMnemonic (mnemonicOf k) = some k := by
  cases k <;> decide

theorem instrOfTokens_renderArgs {i : Instr} (h : i.wf = true) : instrOfTokens i.kind (renderArgs i) = some i := by
  cases i <;>
    simp_all [Instr.wf, Instr.kind, renderArgs, instrOfTokens, registerToken_letterOfReg, operandToken_renderOperand]

section Shapes
variable {s t : Text} {i : Instr}

theorem wf_of_registerAndOperand {f : Reg → Operand → Instr} (hf : ∀ rd x, (f rd x).wf = (regOk rd && x.wf))
    (h : ((registerToken s).bind fun rd => (operandToken t).map (f rd)) = some i) : i.wf = true := by
  obtain ⟨rd, hrd, h⟩ := Option.bind_eq_some_iff.1 h
  obtain ⟨x, hx, rfl⟩ := Option.map_eq_some_iff.1 h
  rw [hf, regOk_of_registerToken hrd, wf_of_operandToken hx, Bool.and_true]

theorem wf_of_twoOperands {f : Operand → Operand → Instr} (hf : ∀ x y, (f x y).wf = (x.wf && y.wf))
    (h : ((operandToken s).bind fun x => (operandToken t).map (f x)) = some i) : i.wf = true := by
  obtain ⟨x, hx, h⟩ := Option.bind_eq_some_iff.1 h
  obtain ⟨y, hy, rfl⟩ := Option.map_eq_some_iff.1 h
  rw [hf, wf_of_operandToken hx, wf_of_operandToken hy, Bool.and_true]

end Shapes

/-- An instruction read from tokens is well-formed, by the argument classes of R67. -/
theorem wf_of_instrOfTokens {k : Kind} {args : List Text} {i : Instr} (h : instrOfTokens k args = some i) : i.wf = true := by
  fun_cases instrOfTokens k args
  case case1 x =>
    obtain ⟨x, hx, rfl⟩ := Option.map_eq_some_iff.1 h
    exact wf_of_operandToken hx
  case case2 | case3 | case4 | case5 | case6 => exact wf_of_registerAndOperand (fun _ _ => rfl) h
  case case7 | case8 => exact wf_of_twoOperands (fun _ _ => rfl) h
  case case9 r =>
    obtain ⟨rd, hrd, rfl⟩ := Option.map_eq_some_iff.1 h
    exact regOk_of_registerToken hrd
  case case10 =>
    rw [instrOfTokens] at h
    · cases h
    all_goals assumption

theorem decodeLine_eq_ok_iff {line : Text} {i : Instr} :
    decodeLine line = .ok i ↔ instrOfPieces (splitAt ' ' (trim line)) = some i := by
  unfold decodeLine
  split <;> simp_all

/-- Settles O33: the error is built from the line itself. -/
theorem lineFailureCarriesTheRawLine : Obligations.LineFailureCarriesTheRawLine := by
  intro line
  unfold decodeLine
  split
  · next i _ => exact .inl ⟨i, rfl⟩
  · exact .inr rfl

theorem eq_of_decodeLine_error {line : Text} {e : LoadError} (h : decodeLine line = .error e) :
    e = .malformedInstruction line := by
  obtain ⟨i, hi⟩ | hraw := lineFailureCarriesTheRawLine line
  · cases hi.symm.trans h
  · cases hraw.symm.trans h
    rfl

theorem decodeLine_render {i : Instr} (h : i.wf = true) : decodeLine (render i) = .ok i := by
  rw [decodeLine_eq_ok_iff, render, trim_joinSpaced (isToken_mnemonicOf _) (isToken_renderArgs i),
    splitAt_joinSpaced (isToken_mnemonicOf _) (isToken_renderArgs i), instrOfPieces, kindOfMnemonic_mnemonicOf,
    Option.bind_some, instrOfTokens_renderArgs h]

theorem wf_of_decodeLine {line : Text} {i : Instr} (h : decodeLine line = .ok i) : i.wf = true := by
  rw [decodeLine_eq_ok_iff] at h
  unfold instrOfPieces at h
  split at h
  · cases h
  · obtain ⟨k, -, htokens⟩ := Option.bind_eq_some_iff.1 h
    exact wf_of_instrOfTokens htokens

/-- Settles O31: a rendered line has the instruction's own pieces, and a decoded instruction is well-formed. -/
theorem renderThenDecodeLineIsTheIdentity : Obligations.RenderThenDecodeLineIsTheIdentity := by
  refine ⟨fun i => decodeLine_render, fun line i h => ?_, .add 0 (.imm 7), by decide, by decide⟩
  have hwf := wf_of_decodeLine h
  exact ⟨hwf, by rw [decodeLine_render hwf, h]⟩

/-- Settles O32: the renderer and the line decoder evaluated on each line. -/
theorem specLinesDecode : Obligations.SpecLinesDecode := by
  unfold Obligations.SpecLinesDecode
  decide

/-! ### Programs (R70) -/

/-- Lines decode to a Program exactly when each decodes to the instruction at its place. -/
theorem decodeLines_eq_ok_iff {ls : List Text} {prog : List Instr} :
    decodeLines ls = .ok prog ↔ List.Forall₂ (fun line i => decodeLine line = .ok i) ls prog := by
  induction ls generalizing prog with
  | nil => simp [decodeLines, eq_comm]
  | cons l ls ih =>
    simp only [decodeLines, List.forall₂_cons_left_iff, ← ih]
    cases decodeLine l with
    | error e => simp
    | ok i => cases decodeLines ls <;> simp [eq_comm]

/-- Line `k` of a decoded text gives instruction `k`. -/
theorem getElem?_of_decodeLines {ls : List Text} {prog : List Instr} {k : Nat} {line : Text}
    (h : List.Forall₂ (fun line i => decodeLine line = .ok i) ls prog) (hk : ls[k]? = some line) :
    ∃ i, prog[k]? = some i ∧ decodeLine line = .ok i := by
  obtain ⟨hls, rfl⟩ := List.getElem?_eq_some_iff.1 hk
  have hprog : k < prog.length := h.length_eq ▸ hls
  exact ⟨prog[k], List.getElem?_eq_getElem hprog, h.get hls hprog⟩

/-- The error of a failed load is that of a line. -/
theorem exists_bad_line_of_decodeLines {ls : List Text} {e : LoadError} (h : decodeLines ls = .error e) :
    ∃ bad ∈ ls, decodeLine bad = .error e := by
  induction ls with
  | nil => cases h
  | cons l ls ih =>
    rw [decodeLines] at h
    split at h
    · next e' hl =>
      cases h
      exact ⟨l, List.mem_cons_self, hl⟩
    · split at h <;> cases h
      next hls =>
      obtain ⟨bad, hmem, hbad⟩ := ih hls
      exact ⟨bad, List.mem_cons_of_mem l hmem, hbad⟩

theorem loadText_of_length_le {t : Text} (h : (textLines t).length ≤ Config.maxLen) :
    loadText t = decodeLines (textLines t) := if_neg (Nat.not_lt.2 h)

theorem loadText_eq_ok_iff {t : Text} {prog : List Instr} :
    loadText t = .ok prog ↔
      (textLines t).length ≤ Config.maxLen ∧ List.Forall₂ (fun line i => decodeLine line = .ok i) (textLines t) prog := by
  rw [← decodeLines_eq_ok_iff, loadText, ← not_lt]
  split <;> simp_all

/-- Settles O34: a Program is one instruction for each line, and a load that gives none has an error, which is that of a line. -/
theorem loaderIsAllOrNothing : Obligations.LoaderIsAllOrNothing := by
  refine ⟨fun t hlines hlen => ?_, fun t prog h => ?_, fun t line e hmem hline hlen => ?_⟩
  · rw [loadText_of_length_le hlen]
    cases hload : decodeLines (textLines t) with
    | ok prog => exact ⟨prog, rfl⟩
    | error e =>
      obtain ⟨bad, hbad, herr⟩ := exists_bad_line_of_decodeLines hload
      obtain ⟨i, hi⟩ := hlines bad hbad
      cases hi.symm.trans herr
  · obtain ⟨hlen, hlines⟩ := loadText_eq_ok_iff.1 h
    exact ⟨hlines.length_eq.symm, hlines.length_eq ▸ hlen, fun k line => getElem?_of_decodeLines hlines⟩
  · rw [loadText_of_length_le hlen]
    cases hload : decodeLines (textLines t) with
    | ok prog =>
      obtain ⟨k, hk⟩ := List.mem_iff_getElem?.1 hmem
      obtain ⟨i, -, hi⟩ := getElem?_of_decodeLines (decodeLines_eq_ok_iff.1 hload) hk
      cases hi.symm.trans hline
    | error e' =>
      obtain ⟨bad, hbad, herr⟩ := exists_bad_line_of_decodeLines hload
      obtain rfl := eq_of_decodeLine_error herr
      exact ⟨bad, hbad, herr, rfl⟩

end Sys2Proof.Machine
end

section
/-! SUPPORT. The register and ALU instructions of 40_register_alu.md: how they complete, what they leave in the destination, and
the `handled` signal, with the statements about them. -/

namespace Sys2Proof.Machine

/-! ### The end of a step (43_sequencer.md R150, R151) -/

/-- A step that changed registers and trace and then went to `n` left the rest as it was. -/
theorem Retired.went {s u : State} {changed : Reg → Prop} {n : Nat} {es : List Event} (hu : OnlyRegsAndTrace s u)
    (hregs : SameRegsBut changed s u) (htrace : u.trace = s.trace ++ es) (hn : n < 2 ^ 64) :
    Retired s { u with pc := BitVec.ofNat 64 n, run := runAt u n } changed n es where
  regs := hregs
  pc := (BitVec.toNat_ofNat n 64).trans (Nat.mod_eq_of_lt hn)
  run := by simp only [runAt, hu.progLen]
  fault := hu.fault
  trace := htrace
  outside := ⟨fun a => by rw [hu.imem], hu.progLen, hu.driver⟩

theorem FaultEntered.raise (s : State) (c : Cause) : FaultEntered s (s.raise c) c :=
  ⟨rfl, .refl noReg s, rfl, rfl, rfl, fun _ => rfl, rfl, rfl⟩

section Destination
variable {s t : State} {rd : Reg} {x : Operand}

/-- From an address of a Program a write-back completes: the destination holds the value, and the frame of R100 holds. -/
theorem State.writeBack_completes (hrd : regOk rd = true) (hpc : s.pc.toNat < Config.maxLen) (v : Word) :
    ∃ t, s.writeBack rd v = .next t ∧ t.readPort rd = v ∧ Retired s t (· = rd) (s.pc.toNat + 1) [] := by
  have hn : s.pc.toNat + 1 < 2 ^ 64 := by
    have hmax : Config.maxLen + 1 < 2 ^ 64 := by decide
    omega
  exact ⟨_, (s.setReg rd v).goto_of_lt hn, s.readPort_setReg_self hrd v,
    .went (.setReg s rd v) (.setReg (changed := (· = rd)) rfl s v) (List.append_nil _).symm hn⟩

/-! ### What each instruction writes back (R101 to R105) -/

theorem exec_set_of_wf (hrd : regOk rd = true) (hx : x.wf = true) :
    exec (.set rd x) s = s.writeBack rd (s.value x) := by
  simp only [exec, execSet, State.withReg_of_regOk hrd, State.withOperand_of_some (s.eval?_eq_value hx)]

/-- The shared meaning of `add`, `sub` and `mul`. -/
theorem State.arith_of_wf (hrd : regOk rd = true) (hx : x.wf = true) (f : Int → Int → Int) :
    s.arith rd x f = s.writeBack rd (wrap64 (f (s.readPort rd).toInt (s.value x).toInt)) := by
  simp only [State.arith, State.withReg_of_regOk hrd, State.withOperand_of_some (s.eval?_eq_value hx)]

theorem exec_mod_of_eq_zero (hrd : regOk rd = true) (hx : x.wf = true) (hv : s.value x = 0) :
    exec (.mod rd x) s = .next (s.raise .divisionByZero) := by
  simp only [exec, execMod, State.withReg_of_regOk hrd, State.withOperand_of_some (s.eval?_eq_value hx), if_pos hv]

/-- `add`, `sub` and `mul` complete with the exact result narrowed, whatever the exact operation is. -/
theorem State.arith_completes (f : Int → Int → Int) (hwf : (regOk rd && x.wf) = true)
    (hpc : s.pc.toNat < Config.maxLen) :
    ∃ t, s.arith rd x f = .next t ∧
      (t.readPort rd).toInt = wrapInt (f (s.readPort rd).toInt (s.value x).toInt) ∧
      Retired s t (· = rd) (s.pc.toNat + 1) [] := by
  obtain ⟨hrd, hx⟩ := Bool.and_eq_true_iff.1 hwf
  obtain ⟨t, ht, hres, hframe⟩ := s.writeBack_completes hrd hpc _
  exact ⟨t, (State.arith_of_wf hrd hx f).trans ht, by rw [hres, toInt_wrap64], hframe⟩

theorem State.readPort_of_arith {f : Int → Int → Int} (hwf : (regOk rd && x.wf) = true)
    (h : s.arith rd x f = .next t) :
    t.readPort rd = wrap64 (f (s.readPort rd).toInt (s.value x).toInt) := by
  obtain ⟨hrd, hx⟩ := Bool.and_eq_true_iff.1 hwf
  rw [State.arith_of_wf hrd hx] at h
  exact State.readPort_of_writeBack hrd h

end Destination

/-! ### The instructions complete (R101 to R105) -/

/-- Settles O5: `set` writes back the value of its operand. -/
theorem setCompletes : Obligations.SetCompletes := by
  intro rd x s hwf hpc
  obtain ⟨hrd, hx⟩ := Bool.and_eq_true_iff.1 hwf
  rw [exec_set_of_wf hrd hx]
  exact s.writeBack_completes hrd hpc _

/-- Settles O6, by the shared meaning of `add`, `sub` and `mul`. -/
theorem addCompletes : Obligations.AddCompletes := fun _ _ _ => State.arith_completes (· + ·)

/-- Settles O7, by the shared meaning of `add`, `sub` and `mul`. -/
theorem subCompletes : Obligations.SubCompletes := fun _ _ _ => State.arith_completes (· - ·)

/-- Settles O8, by the shared meaning of `add`, `sub` and `mul`. -/
theorem mulCompletes : Obligations.MulCompletes := fun _ _ _ => State.arith_completes (· * ·)

/-- Settles O9: the signed remainder of the patterns is R8's remainder of their values, `MIN` by -1 included. -/
theorem modCompletes : Obligations.ModCompletes := by
  intro rd x s hwf hv hpc
  obtain ⟨hrd, hx⟩ := Bool.and_eq_true_iff.1 hwf
  obtain ⟨t, ht, hres, hframe⟩ := s.writeBack_completes hrd hpc ((s.readPort rd).srem (s.value x))
  refine ⟨t, (exec_mod_of_ne_zero hrd hx hv).trans ht, ?_, hframe⟩
  rw [hres, BitVec.toInt_srem, Int.tmod_def]

/-! ### The low 64 bits (R106) -/

theorem wrap64_add (d v : Word) : wrap64 (d.toInt + v.toInt) = d + v :=
  BitVec.eq_of_toInt_eq (by rw [wrap64, BitVec.toInt_ofInt, BitVec.toInt_add])

theorem wrap64_sub (d v : Word) : wrap64 (d.toInt - v.toInt) = d - v :=
  BitVec.eq_of_toInt_eq (by rw [wrap64, BitVec.toInt_ofInt, BitVec.toInt_sub])

theorem wrap64_mul (d v : Word) : wrap64 (d.toInt * v.toInt) = d * v :=
  BitVec.eq_of_toInt_eq (by rw [wrap64, BitVec.toInt_ofInt, BitVec.toInt_mul])

/-- Settles O12: narrowing an exact result is the operation on patterns, which the library reads as unsigned. -/
theorem lowBitsDoNotDependOnSignedness : Obligations.LowBitsDoNotDependOnSignedness := by
  intro rd x s t hwf
  refine ⟨fun hadd => ?_, fun hsub => ?_, fun hmul => ?_⟩
  · rw [State.readPort_of_arith hwf hadd, wrap64_add, BitVec.toNat_add]
  · rw [State.readPort_of_arith hwf hsub, wrap64_sub, BitVec.toNat_sub, Nat.add_comm]
  · rw [State.readPort_of_arith hwf hmul, wrap64_mul, BitVec.toNat_mul]

/-! ### One register as source and destination (R109) -/

/-- Settles O14: each case is the instruction's completion, or its fault, at the operand `r`. -/
theorem sameRegisterAsSourceAndDestination : Obligations.SameRegisterAsSourceAndDestination := by
  intro r s hr hpc
  have hx : (Operand.reg r).wf = true := hr
  have hwf : (regOk r && (Operand.reg r).wf) = true := Bool.and_eq_true_iff.2 ⟨hr, hx⟩
  refine ⟨?set, ?add, ?sub, ?mul, fun hne => ?mod, fun hzero => ?modZero⟩
  case set =>
    obtain ⟨t, ht, hres, hframe⟩ := setCompletes r (.reg r) s hwf hpc
    refine ⟨t, ht, fun q => ?_⟩
    obtain rfl | hq := eq_or_ne q r
    · exact hres
    · exact hframe.regs q hq
  case add =>
    obtain ⟨t, ht, hres, -⟩ := addCompletes r (.reg r) s hwf hpc
    exact ⟨t, ht, by rw [hres, Int.two_mul]; rfl⟩
  case sub =>
    obtain ⟨t, ht, hres, -⟩ := subCompletes r (.reg r) s hwf hpc
    refine ⟨t, ht, BitVec.eq_of_toInt_eq (hres.trans ?_)⟩
    rw [State.value, Int.sub_self]
    rfl
  case mul =>
    obtain ⟨t, ht, hres, -⟩ := mulCompletes r (.reg r) s hwf hpc
    exact ⟨t, ht, hres⟩
  case mod =>
    obtain ⟨t, ht, hres, hframe⟩ := s.writeBack_completes hr hpc ((s.readPort r).srem (s.value (.reg r)))
    exact ⟨t, (exec_mod_of_ne_zero hr hx hne).trans ht, hres.trans BitVec.srem_self, hframe.fault⟩
  case modZero => exact ⟨_, exec_mod_of_eq_zero hr hx hzero, .raise s _⟩

/-! ### Who executes (R110) -/

theorem handledKind_of_mem_alu {k : Kind} (h : k ∈ [Kind.set, .add, .sub, .mul]) : k ≠ .mod ∧ handledKind k = true := by
  revert k; decide

theorem handledKind_of_mem_driver {k : Kind} (h : k ∈ [Kind.snd, .jgz, .jnz, .rcv]) :
    k ≠ .mod ∧ handledKind k = false := by
  revert k; decide

theorem State.value_of_eval? {s : State} {x : Operand} {v : Word} (h : s.eval? x = some v) : s.value x = v := by
  cases x with
  | reg r => exact congrArg (Option.getD · 0) h
  | imm n => exact Option.some.inj h

theorem State.dividesByZero_mod_eq_false {s : State} {rd : Reg} {x : Operand} (h : s.value x ≠ 0) :
    s.dividesByZero (.mod rd x) = false :=
  decide_eq_false (mt State.value_of_eval? h)

/-- A kind that is not `mod` never divides by zero. -/
theorem State.dividesByZero_of_kind_ne_mod (s : State) {i : Instr} (h : i.kind ≠ .mod) : s.dividesByZero i = false := by
  cases i with
  | mod rd x => exact absurd rfl h
  | _ => rfl

section Handled
variable {s : State} {i : Instr} (hcur : s.currentInstr? = some i) (hrun : s.run = .running)
include hcur hrun

theorem State.handled_eq :
    s.portOut.handled = if s.stepEnabled && s.dividesByZero i then none else some (handledKind i.kind) := by
  simp only [State.portOut, State.handledOut, State.shownInstr?, if_pos hrun, hcur]

/-- `handled` shows the kind unless the coming edge is a step that faults. -/
theorem State.handled_of_no_fault (h : s.stepEnabled = false ∨ s.dividesByZero i = false) :
    s.portOut.handled = some (handledKind i.kind) := by
  rw [State.handled_eq hcur hrun, Bool.and_eq_false_iff.2 h]
  rfl

theorem State.handledKind_of_handled (h : s.portOut.handled = some true) : handledKind i.kind = true := by
  rw [State.handled_eq hcur hrun] at h
  split at h
  · cases h
  · exact Option.some.inj h

end Handled

section Presented
variable {s : State} {i : Instr} (hcur : s.currentInstr? = some i) (hkind : handledKind i.kind = true)
include hcur hkind

/-- Only a `snd` presents a value to the driver, and the register file does not apply it. -/
theorem State.sndValid_of_handledKind : s.portOut.sndValid = false := by
  change s.sndOut.isSome = false
  unfold State.sndOut
  split
  · next hsnd =>
    obtain rfl := Option.some.inj (hcur.symm.trans hsnd)
    cases hkind
  · rfl

/-- Only a `rcv` asks the driver for a value, and the register file does not apply it. -/
theorem State.rcvReq_of_handledKind : s.portOut.rcvReq = false := by
  change s.rcvOut.isSome = false
  unfold State.rcvOut State.activeInstr?
  split
  · next hrcv =>
    obtain ⟨-, hrcv⟩ := Option.ite_none_right_eq_some.1 hrcv
    obtain rfl := Option.some.inj (hcur.symm.trans hrcv)
    cases hkind
  · rfl

end Presented

/-- Settles O49: `handled` is the kind's, as no kind but `mod` can fault, and the kinds it is 1 for present nothing. -/
theorem handledTellsWhoExecutes : Obligations.HandledTellsWhoExecutes := by
  intro s i hcur hrun
  have hother (hne : i.kind ≠ .mod) : s.portOut.handled = some (handledKind i.kind) :=
    State.handled_of_no_fault hcur hrun (.inr (s.dividesByZero_of_kind_ne_mod hne))
  refine ⟨fun halu => ?alu, fun rd x hmod hdiv => ?mod, fun hdriver => ?driver, fun hone => ?one⟩
  case alu =>
    obtain ⟨hne, hkind⟩ := handledKind_of_mem_alu halu
    rw [hother hne, hkind]
  case mod =>
    subst hmod
    exact State.handled_of_no_fault hcur hrun (hdiv.imp_right State.dividesByZero_mod_eq_false)
  case driver =>
    obtain ⟨hne, hkind⟩ := handledKind_of_mem_driver hdriver
    rw [hother hne, hkind]
  case one =>
    have hkind := State.handledKind_of_handled hcur hrun hone
    exact ⟨State.sndValid_of_handledKind hcur hkind, State.rcvReq_of_handledKind hcur hkind⟩

end Sys2Proof.Machine
end

section
/-! SUPPORT. Control transfer of 41_control_transfer.md: the displacement of the pointer, the end of a step that goes to a pointer,
the two jumps, and the next pointer of every instruction, with the statements about them. -/

namespace Sys2Proof.Machine

/-! ### The displacement (R121) -/

theorem applyDisp_of_nonneg (p : Nat) {d : Int} (hd : 0 ≤ d) : applyDisp p d = p + d.toNat := if_pos hd

theorem applyDisp_of_natAbs_le {p : Nat} {d : Int} (hd : d < 0) (h : d.natAbs ≤ p) : applyDisp p d = p - d.natAbs := by
  rw [applyDisp, if_neg hd.not_ge, if_pos h]

theorem applyDisp_of_lt_natAbs {p : Nat} {d : Int} (hd : d < 0) (h : p < d.natAbs) : applyDisp p d = Config.sentinel := by
  rw [applyDisp, if_neg hd.not_ge, if_neg h.not_ge]

@[simp] theorem applyDisp_zero (p : Nat) : applyDisp p 0 = p := rfl

/-- Settles O16: a forward sum of an address of a Program and a 64-bit displacement stays below the sentinel, so that only a jump
before address 0 answers it. -/
theorem displacementApplication : Obligations.DisplacementApplication := by
  intro p d hp
  refine ⟨fun hd => ?forward, fun hd hle => ?backward, fun hd hlt => applyDisp_of_lt_natAbs hd hlt⟩
  case forward =>
    have hmax : d.toInt ≤ Config.maxInt := (toInt_mem_range d).2
    unfold Config.maxLen at hp
    unfold Config.maxInt at hmax
    rw [applyDisp_of_nonneg p hd]
    omega
  case backward =>
    rw [applyDisp_of_natAbs_le hd hle]
    omega

/-! ### The end of a step that goes to a pointer (43_sequencer.md R150, R151) -/

section Goto
variable {s t : State} {n : Nat}

/-- A step that changes nothing and goes to a pointer that fits 64 bits completes. -/
theorem State.goto_completes (s : State) (hn : n < 2 ^ 64) : ∃ t, s.goto n = .next t ∧ Retired s t noReg n [] :=
  ⟨_, s.goto_of_lt hn, .went (.refl s) (.refl noReg s) (List.append_nil _).symm hn⟩

theorem State.pc_of_goto (h : s.goto n = .next t) : t.pc.toNat = n := by
  obtain ⟨hn, rfl⟩ := State.goto_eq_next_iff.1 h
  exact (BitVec.toNat_ofNat n 64).trans (Nat.mod_eq_of_lt hn)

/-- Going to its own pc leaves a running core inside its Program as it was (R36 (b), (e)). -/
theorem State.goto_pc_of_running (hinv : s.Inv) (hrun : s.run = .running) : s.goto s.pc.toNat = .next s := by
  have hsent : s.pc.toNat ≠ Config.sentinel := fun hs => by
    have hhalt := hinv.sentinel hs
    rw [hrun] at hhalt
    cases hhalt
  have hat : runAt s s.pc.toNat = s.run := (runAt_eq_running_iff.2 ⟨hinv.running hrun, hsent⟩).trans hrun.symm
  rw [s.goto_of_lt s.pc.isLt, hat, BitVec.ofNat_toNat, BitVec.setWidth_eq]

/-- Going to a pointer at or above the length halts there, and the fault latch stays as it is. -/
theorem State.goto_halts (hlen : s.progLen.toNat ≤ Config.maxLen) (hout : s.progLen.toNat ≤ n) (hn : n < 2 ^ 64) :
    ∃ t, s.goto n = .next t ∧ t.run = .halted ∧ t.pc.toNat = n ∧ t.fault = s.fault := by
  obtain ⟨t, ht, hframe⟩ := s.goto_completes hn
  exact ⟨t, ht, hframe.run.trans ((runAt_eq_halted_iff hlen).2 hout), hframe.pc, hframe.fault⟩

end Goto

/-! ### The two jumps (R122, R123) -/

section Jumps
variable {s : State} {x y : Operand} (hwf : (x.wf && y.wf) = true)
include hwf

/-- A jump whose operands exist goes by the value of the offset when its condition holds, and by 1 otherwise. -/
theorem State.jumpIf_of_wf (cond : Int → Bool) :
    s.jumpIf x y cond =
      s.goto (applyDisp s.pc.toNat (if cond (s.value x).toInt then (s.value y).toInt else 1)) := by
  obtain ⟨hx, hy⟩ := Bool.and_eq_true_iff.1 hwf
  simp only [State.jumpIf, State.withOperand_of_some (s.eval?_eq_value hx), State.withOperand_of_some (s.eval?_eq_value hy)]

/-- From an address of a Program a jump completes, taken or not, and changes the pointer and the run state only. -/
theorem State.jumpIf_completes (hpc : s.pc.toNat < Config.maxLen) (cond : Int → Bool) :
    ∃ t, s.jumpIf x y cond = .next t ∧
      (cond (s.value x).toInt = true → Retired s t noReg (applyDisp s.pc.toNat (s.value y).toInt) []) ∧
      (cond (s.value x).toInt = false → Retired s t noReg (s.pc.toNat + 1) []) := by
  rw [State.jumpIf_of_wf hwf]
  cases cond (s.value x).toInt with
  | true =>
    obtain ⟨t, ht, hframe⟩ := s.goto_completes (applyDisp_lt hpc (s.value y))
    exact ⟨t, ht, fun _ => hframe, nofun⟩
  | false =>
    obtain ⟨t, ht, hframe⟩ := s.goto_completes (applyDisp_lt hpc 1)
    exact ⟨t, ht, nofun, fun _ => hframe⟩

theorem exec_jgz_of_wf :
    exec (.jgz x y) s = s.goto (applyDisp s.pc.toNat (if 0 < (s.value x).toInt then (s.value y).toInt else 1)) := by
  simp only [exec, execJgz, State.jumpIf_of_wf hwf, decide_eq_true_eq]

theorem exec_jnz_of_wf :
    exec (.jnz x y) s = s.goto (applyDisp s.pc.toNat (if (s.value x).toInt ≠ 0 then (s.value y).toInt else 1)) := by
  simp only [exec, execJnz, State.jumpIf_of_wf hwf, decide_eq_true_eq]

theorem exec_jgz_of_pos (h : 0 < (s.value x).toInt) :
    exec (.jgz x y) s = s.goto (applyDisp s.pc.toNat (s.value y).toInt) := by
  rw [exec_jgz_of_wf hwf, if_pos h]

theorem exec_jnz_of_ne_zero (h : (s.value x).toInt ≠ 0) :
    exec (.jnz x y) s = s.goto (applyDisp s.pc.toNat (s.value y).toInt) := by
  rw [exec_jnz_of_wf hwf, if_pos h]

end Jumps

theorem toInt_ne_zero {v : Word} (h : v ≠ 0) : v.toInt ≠ 0 := fun h0 => h (BitVec.eq_of_toInt_eq h0)

/-- Settles O17: the condition of the shared jump is `X > 0`. -/
theorem jgzCompletes : Obligations.JgzCompletes := by
  intro x y s hwf hpc
  obtain ⟨t, ht, htaken, hnot⟩ := State.jumpIf_completes hwf hpc fun c => decide (0 < c)
  exact ⟨t, ht, fun hpos => htaken (decide_eq_true hpos), fun hle => hnot (decide_eq_false hle.not_gt)⟩

/-- Settles O18: the condition of the shared jump is that `X` is not 0. -/
theorem jnzCompletes : Obligations.JnzCompletes := by
  intro x y s hwf hpc
  obtain ⟨t, ht, htaken, hnot⟩ := State.jumpIf_completes hwf hpc fun c => decide (c ≠ 0)
  refine ⟨t, ht, fun hne => htaken (decide_eq_true (toInt_ne_zero hne)), fun hzero => hnot ?_⟩
  rw [hzero]
  rfl

/-- Settles O20: the displaced pointer is the pc itself, and the invariant gives back the run state. -/
theorem zeroDisplacementLoopsInPlace : Obligations.ZeroDisplacementLoopsInPlace := by
  intro x y s hwf hzero hrun hinv
  have hstay : s.goto (applyDisp s.pc.toNat (s.value y).toInt) = .next s := by
    have hd : (s.value y).toInt = 0 := congrArg BitVec.toInt hzero
    rw [hd, applyDisp_zero]
    exact State.goto_pc_of_running hinv hrun
  exact ⟨fun hpos => (exec_jgz_of_pos hwf hpos).trans hstay,
    fun hne => (exec_jnz_of_ne_zero hwf (toInt_ne_zero hne)).trans hstay⟩

/-- Settles O21: both jumps go to the displaced pointer, which lies at or above the length in either direction, as the sentinel
lies above every Program. -/
theorem jumpOutOfTheProgramHalts : Obligations.JumpOutOfTheProgramHalts := by
  intro x y s hwf hpc hlen hpos
  have halts (hout : s.progLen.toNat ≤ applyDisp s.pc.toNat (s.value y).toInt) :
      ∃ t, exec (.jgz x y) s = .next t ∧ exec (.jnz x y) s = .next t ∧ t.run = .halted ∧
        t.pc.toNat = applyDisp s.pc.toNat (s.value y).toInt ∧ t.fault = s.fault := by
    obtain ⟨t, ht, hend⟩ := State.goto_halts hlen hout (applyDisp_lt hpc _)
    exact ⟨t, (exec_jgz_of_pos hwf hpos).trans ht, (exec_jnz_of_ne_zero hwf hpos.ne').trans ht, hend⟩
  obtain ⟨hforward, -, hbefore⟩ := displacementApplication s.pc.toNat (s.value y) hpc
  refine ⟨fun hd hout => ?forward, fun hd hlt => ?backward⟩
  case forward =>
    obtain ⟨hsum, -⟩ := hforward hd
    obtain ⟨t, hjgz, hjnz, hrun, htpc, hfault⟩ := halts (by omega)
    exact ⟨t, hjgz, hjnz, hrun, by rw [htpc, hsum], hfault⟩
  case backward =>
    have hsent : Config.maxLen ≤ 2 ^ 64 - 1 := by decide
    have htarget := hbefore hd hlt
    rw [htarget] at halts
    exact halts (hlen.trans hsent)

/-! ### The next pointer of every instruction (R120) -/

section NextPointer
variable {s : State} {i : Instr}

theorem nextPointer_jgz_of_wf {x y : Operand} (hwf : (x.wf && y.wf) = true) :
    nextPointer s (.jgz x y) =
      some (applyDisp s.pc.toNat (if (s.value x).toInt > 0 then (s.value y).toInt else 1)) := by
  obtain ⟨hx, hy⟩ := Bool.and_eq_true_iff.1 hwf
  simp [nextPointer, s.eval?_eq_value hx, s.eval?_eq_value hy]

theorem nextPointer_jnz_of_wf {x y : Operand} (hwf : (x.wf && y.wf) = true) :
    nextPointer s (.jnz x y) =
      some (applyDisp s.pc.toNat (if (s.value x).toInt ≠ 0 then (s.value y).toInt else 1)) := by
  obtain ⟨hx, hy⟩ := Bool.and_eq_true_iff.1 hwf
  simp [nextPointer, s.eval?_eq_value hx, s.eval?_eq_value hy]

theorem exec_snd_of_wf {x : Operand} (hx : x.wf = true) :
    exec (.snd x) s = (s.emit (.send (s.value x))).advance :=
  State.withOperand_of_some (s.eval?_eq_value hx) _

theorem exec_rcv_of_valid {rd : Reg} (hrd : regOk rd = true) (hvalid : s.portIn.rcvValid = true) :
    exec (.rcv rd) s = ((s.setReg rd s.portIn.rcvData).emit (.recv rd s.portIn.rcvData)).advance :=
  (State.withReg_of_regOk hrd _).trans (if_pos hvalid)

theorem exec_of_dividesByZero (hwf : i.wf = true) (h : s.dividesByZero i = true) :
    exec i s = .next (s.raise .divisionByZero) := by
  cases i with
  | mod rd x =>
    obtain ⟨hrd, hx⟩ := Bool.and_eq_true_iff.1 hwf
    exact exec_mod_of_eq_zero hrd hx (State.value_of_eval? (of_decide_eq_true h))
  | _ => cases h

/-- A well-formed instruction that does not divide by zero and is not held ends by going to its next pointer. -/
theorem exec_goes_to_nextPointer (hwf : i.wf = true) (hdiv : s.dividesByZero i = false)
    (hvalid : ∀ rd, i = .rcv rd → s.portIn.rcvValid = true) :
    ∃ (u : State) (n : Nat), nextPointer s i = some n ∧ exec i s = u.goto n := by
  have arith {rd : Reg} {x : Operand} (hwf : (regOk rd && x.wf) = true) (f : Int → Int → Int) :
      ∃ (u : State) (n : Nat), some (s.pc.toNat + 1) = some n ∧ s.arith rd x f = u.goto n := by
    obtain ⟨hrd, hx⟩ := Bool.and_eq_true_iff.1 hwf
    exact ⟨_, _, rfl, State.arith_of_wf hrd hx f⟩
  cases i with
  | snd x => exact ⟨_, _, rfl, exec_snd_of_wf hwf⟩
  | set rd x =>
    obtain ⟨hrd, hx⟩ := Bool.and_eq_true_iff.1 hwf
    exact ⟨_, _, rfl, exec_set_of_wf hrd hx⟩
  | add rd x => exact arith hwf (· + ·)
  | sub rd x => exact arith hwf (· - ·)
  | mul rd x => exact arith hwf (· * ·)
  | mod rd x =>
    obtain ⟨hrd, hx⟩ := Bool.and_eq_true_iff.1 hwf
    have hne : s.value x ≠ 0 := fun h0 => of_decide_eq_false hdiv ((s.eval?_eq_value hx).trans (congrArg some h0))
    exact ⟨_, _, rfl, exec_mod_of_ne_zero hrd hx hne⟩
  | jgz x y => exact ⟨s, _, nextPointer_jgz_of_wf hwf, exec_jgz_of_wf hwf⟩
  | jnz x y => exact ⟨s, _, nextPointer_jnz_of_wf hwf, exec_jnz_of_wf hwf⟩
  | rcv rd => exact ⟨_, _, rfl, exec_rcv_of_valid hwf (hvalid rd rfl)⟩

end NextPointer

/-- Settles O19: a zero divisor would have left a fault, and every other end of an unheld instruction is at the next pointer. -/
theorem pcTakesTheNextPointer : Obligations.PcTakesTheNextPointer := by
  intro i s t hwf hexec hfault _ hvalid
  cases hdiv : s.dividesByZero i with
  | true =>
    rw [exec_of_dividesByZero hwf hdiv] at hexec
    cases hexec
    cases hfault
  | false =>
    obtain ⟨u, n, hnext, hgo⟩ := exec_goes_to_nextPointer hwf hdiv hvalid
    rw [hgo] at hexec
    rw [hnext, State.pc_of_goto hexec]

end Sys2Proof.Machine
end

section
/-! SUPPORT. The driver hand-off of 42_driver_handoff.md: how `snd` and `rcv` complete, the hold on `rcv`, the events an edge
appends to the trace and the receive port, with the statements about them. -/

namespace Sys2Proof.Machine

/-! ### The instructions complete (R141, R142) -/

/-- Settles O23: `snd` emits the value of its operand and goes to the pointer after it. -/
theorem sndCompletes : Obligations.SndCompletes := by
  intro x s hwf hpc
  have hn : s.pc.toNat + 1 < 2 ^ 64 := applyDisp_lt hpc 1
  rw [exec_snd_of_wf hwf]
  exact ⟨_, State.goto_of_lt _ hn, .went (.emit s _) (.emit (.refl noReg s) _) rfl hn⟩

/-- Settles O24: `rcv` writes the value on the port, emits the event and goes to the pointer after it. -/
theorem rcvCompletes : Obligations.RcvCompletes := by
  intro rd s hwf hvalid hpc
  have hn : s.pc.toNat + 1 < 2 ^ 64 := applyDisp_lt hpc 1
  rw [exec_rcv_of_valid hwf hvalid]
  exact ⟨_, State.goto_of_lt _ hn, s.readPort_setReg_self hwf _,
    .went (.setReg_emit s rd _ _) (.emit (.setReg (changed := (· = rd)) rfl s _) _) rfl hn⟩

/-! ### The instruction at the pc and what the ports show of it (R144) -/

section Ports
variable {s : State} {i : Instr}

theorem State.currentInstr?_eq_some_iff : s.currentInstr? = some i ↔ s.decoded = some (.instr i) := by
  unfold State.currentInstr?
  split <;> simp_all

/-- An enabled step at an instruction is its execution (43_sequencer.md R150). -/
theorem State.coreEdge_eq_exec (hen : s.stepEnabled = true) (hcur : s.currentInstr? = some i) : s.coreEdge = exec i s := by
  have hrst : s.portIn.rst = false := by simp_all [State.stepEnabled]
  simp [State.coreEdge, hrst, hen, State.takeStep, State.currentInstr?_eq_some_iff.1 hcur]

theorem State.sndData_eq_some_iff {v : Word} :
    s.portOut.sndData = some v ↔
      s.stepEnabled = true ∧ ∃ x, s.currentInstr? = some (.snd x) ∧ s.eval? x = some v := by
  change s.sndOut = some v ↔ _
  unfold State.sndOut
  split <;> simp_all

theorem State.rcvReg_eq_some_iff {rd : Reg} :
    s.portOut.rcvReg = some rd ↔ s.active = true ∧ s.currentInstr? = some (.rcv rd) := by
  change s.rcvOut = some rd ↔ _
  unfold State.rcvOut State.activeInstr?
  split <;> simp_all

theorem State.active_eq_true_of_stepEnabled (h : s.stepEnabled = true) : s.active = true := by
  simp [State.active, State.active_of_stepEnabled h]

/-- While `rcv_req` is 0, an active core stands at no `rcv`. -/
theorem State.ne_rcv_of_not_rcvReq (hreq : s.portOut.rcvReq = false) (hact : s.active = true)
    (hcur : s.currentInstr? = some i) (rd : Reg) : i ≠ .rcv rd := by
  rintro rfl
  have hreg : s.portOut.rcvReg = some rd := State.rcvReg_eq_some_iff.2 ⟨hact, hcur⟩
  change s.portOut.rcvReg.isSome = false at hreq
  rw [hreg] at hreq
  cases hreq

end Ports

/-! ### The hold on `rcv` (R143) -/

theorem State.awaitsValue_of_rcv {s : State} {rd : Reg} (hcur : s.currentInstr? = some (.rcv rd)) :
    s.awaitsValue = !s.portIn.rcvValid := by
  simp only [State.awaitsValue, hcur]

theorem State.awaitsValue_of_ne_rcv {s : State} (h : ∀ rd, s.currentInstr? ≠ some (.rcv rd)) : s.awaitsValue = false := by
  unfold State.awaitsValue
  split
  · next rd hcur => exact absurd hcur (h rd)
  · rfl

/-- Settles O25: awaiting a value disables the step, and the driver asks for no write. -/
theorem rcvHoldsWithoutAValue : Obligations.RcvHoldsWithoutAValue := by
  intro rd s hcur hrun hfault hvalid hrst hwe
  have hreg : s.portOut.rcvReg = some rd := State.rcvReg_eq_some_iff.2 ⟨by simp [State.active, hrun, hfault], hcur⟩
  have hwait : s.awaitsValue = true := by rw [State.awaitsValue_of_rcv hcur, hvalid]; rfl
  have hheld : s.coreEdge = .next s := by
    simp [State.coreEdge, State.stepEnabled, hrst, hwait, State.driverWrite_of_not_we hwe]
  exact ⟨congrArg (mapNext State.endEdge) hheld, congrArg Option.isSome hreg, hreg⟩

/-! ### The trace (R146) -/

/-- The events an instruction emits: the value of a `snd`, and the value on the port at a `rcv` that has one. -/
def State.emitted (s : State) : Instr → List Event
  | .snd x => (s.eval? x).toList.map .send
  | .rcv rd => if regOk rd && s.portIn.rcvValid then [.recv rd s.portIn.rcvData] else []
  | _ => []

/-- An instruction emits nothing, or is a `snd` of a value, or a `rcv` with a value on the port. -/
theorem State.emitted_cases (s : State) (i : Instr) :
    s.emitted i = [] ∨ (∃ x v, i = .snd x ∧ s.eval? x = some v) ∨
      ∃ rd, i = .rcv rd ∧ s.portIn.rcvValid = true ∧ s.emitted i = [.recv rd s.portIn.rcvData] := by
  cases i with
  | snd x =>
    cases hx : s.eval? x with
    | none => exact .inl (by rw [State.emitted, hx]; rfl)
    | some v => exact .inr (.inl ⟨x, v, rfl, hx⟩)
  | rcv rd =>
    by_cases hb : (regOk rd && s.portIn.rcvValid) = true
    · exact .inr (.inr ⟨rd, rfl, (Bool.and_eq_true_iff.1 hb).2, if_pos hb⟩)
    · exact .inl (if_neg hb)
  | _ => exact .inl rfl

/-- The next state of the outcome, when it has one, has these events appended to the trace. -/
def Appends (s : State) (es : List Event) (o : Out) : Prop := ∀ t, o = .next t → t.trace = s.trace ++ es

theorem Appends.next {s t : State} (h : t.trace = s.trace) : Appends s [] (.next t) := by
  rintro _ ⟨⟩
  rw [h, List.append_nil]

theorem Appends.goto {s u : State} {es : List Event} (h : u.trace = s.trace ++ es) (n : Nat) : Appends s es (u.goto n) := by
  intro t ht
  obtain ⟨-, rfl⟩ := State.goto_eq_next_iff.1 ht
  exact h

theorem Appends.snd (x : Operand) (s : State) : Appends s (s.emitted (.snd x)) (exec (.snd x) s) := by
  cases hx : x.wf with
  | true =>
    rw [exec_snd_of_wf hx, State.emitted, s.eval?_eq_value hx]
    exact .goto rfl _
  | false =>
    rw [exec, execSnd, State.withOperand, State.emitted, s.eval?_of_not_wf hx]
    exact .next rfl

theorem Appends.rcv (rd : Reg) (s : State) : Appends s (s.emitted (.rcv rd)) (exec (.rcv rd) s) := by
  rw [exec, execRcv, State.emitted]
  obtain ⟨hrd, he⟩ | ⟨hrd, he⟩ := s.withReg_cases rd _ <;> rw [he, hrd]
  · cases s.portIn.rcvValid with
    | true => exact .goto rfl _
    | false => exact .next rfl
  · exact .next rfl

/-- Every instruction appends the events it emits; only `snd` and `rcv` emit any. -/
theorem exec_appends_emitted (i : Instr) (s : State) : Appends s (s.emitted i) (exec i s) := by
  have raised (c : Cause) : Appends s [] (.next (s.raise c)) := .next rfl
  have wroteBack (rd : Reg) (v : Word) : Appends s [] (s.writeBack rd v) := .goto (List.append_nil _).symm _
  have arith (rd : Reg) (x : Operand) (f : Int → Int → Int) : Appends s [] (s.arith rd x f) :=
    State.withReg_rule raised fun _ => State.withOperand_rule raised fun _ => wroteBack rd _
  have jumped (x y : Operand) (cond : Int → Bool) : Appends s [] (s.jumpIf x y cond) :=
    State.jumpIf_rule raised fun _ => .goto (List.append_nil _).symm _
  cases i with
  | snd x => exact .snd x s
  | set rd x => exact State.withReg_rule raised fun _ => State.withOperand_rule raised fun _ => wroteBack rd _
  | add rd x => exact arith rd x _
  | sub rd x => exact arith rd x _
  | mul rd x => exact arith rd x _
  | mod rd x =>
    refine State.withReg_rule raised fun _ => State.withOperand_rule raised fun _ => ?_
    split
    · exact raised _
    · exact wroteBack rd _
  | jgz x y => exact jumped x y fun c => decide (0 < c)
  | jnz x y => exact jumped x y fun c => decide (c ≠ 0)
  | rcv rd => exact .rcv rd s

/-- Settles O46: a shown `Send` is what the step's `snd` emits, and of the other edges only a step at a `rcv` with a value
emits. -/
theorem traceRecordsTheHandOffs : Obligations.TraceRecordsTheHandOffs := by
  intro s t hrst hstep
  obtain ⟨u, hu, rfl⟩ := mapNext_eq_next_iff.1 hstep
  refine ⟨fun v hsnd => ?sent, fun hnone => ?notSent⟩
  case sent =>
    obtain ⟨hen, x, hcur, hv⟩ := State.sndData_eq_some_iff.1 hsnd
    rw [State.coreEdge_eq_exec hen hcur] at hu
    have htrace := exec_appends_emitted _ s u hu
    rwa [State.emitted, hv] at htrace
  case notSent =>
    obtain ⟨hr, -⟩ | ⟨-, -, he⟩ | ⟨hen, ⟨-, he⟩ | ⟨c, he⟩ | ⟨i, hi, he⟩⟩ := s.coreEdge_cases
    · cases hr.symm.trans hrst
    · cases he.symm.trans hu
      exact .inl s.driverWrite_trace
    · cases he.symm.trans hu
    · cases he.symm.trans hu
      exact .inl rfl
    · have hcur := State.currentInstr?_eq_some_iff.2 hi
      have htrace := exec_appends_emitted i s u (he.symm.trans hu)
      obtain hnil | ⟨x, v, rfl, hv⟩ | ⟨rd, rfl, hvalid, hrecv⟩ := s.emitted_cases i
      · rw [hnil, List.append_nil] at htrace
        exact .inl htrace
      · have hsnd : s.portOut.sndData = some v := State.sndData_eq_some_iff.2 ⟨hen, x, hcur, hv⟩
        cases hnone.symm.trans (congrArg Option.isSome hsnd)
      · have hreg : s.portOut.rcvReg = some rd :=
          State.rcvReg_eq_some_iff.2 ⟨State.active_eq_true_of_stepEnabled hen, hcur⟩
        rw [hrecv] at htrace
        exact .inr ⟨rd, hreg, hvalid, htrace⟩

/-! ### The receive port (R144) -/

/-- The state with other values on `rcv_valid` and `rcv_data` at the coming edge. -/
def State.withReceive (s : State) (valid : Bool) (data : Word) : State :=
  { s with driver := { s.portIn with rcvValid := valid, rcvData := data } :: s.driver.tail }

theorem mapNext_mapNext (f g : State → State) (o : Out) : mapNext f (mapNext g o) = mapNext (fun s => f (g s)) o := by
  cases o <;> rfl

/-! Whatever does not read the receive port commutes with changing its values. -/

section Receive
variable (valid : Bool) (data : Word) (s : State)

theorem State.goto_withReceive (n : Nat) :
    (s.withReceive valid data).goto n = mapNext (·.withReceive valid data) (s.goto n) := by
  unfold State.goto
  split <;> rfl

theorem State.withOperand_withReceive (x : Operand) {k k' : Word → Out}
    (hk : ∀ v, k' v = mapNext (·.withReceive valid data) (k v)) :
    (s.withReceive valid data).withOperand x k' = mapNext (·.withReceive valid data) (s.withOperand x k) := by
  have heval : (s.withReceive valid data).eval? x = s.eval? x := by cases x <;> rfl
  unfold State.withOperand
  rw [heval]
  cases s.eval? x with
  | some v => exact hk v
  | none => rfl

theorem State.withReg_withReceive (r : Reg) {k k' : Word → Out}
    (hk : ∀ v, k' v = mapNext (·.withReceive valid data) (k v)) :
    (s.withReceive valid data).withReg r k' = mapNext (·.withReceive valid data) (s.withReg r k) := by
  have hget : (s.withReceive valid data).getReg? r = s.getReg? r := rfl
  unfold State.withReg
  rw [hget]
  cases s.getReg? r with
  | some v => exact hk v
  | none => rfl

/-- No instruction but `rcv` reads the receive port. -/
theorem exec_withReceive {i : Instr} (hi : ∀ rd, i ≠ .rcv rd) :
    exec i (s.withReceive valid data) = mapNext (·.withReceive valid data) (exec i s) := by
  have wroteBack (rd : Reg) (v : Word) :
      (s.withReceive valid data).writeBack rd v = mapNext (·.withReceive valid data) (s.writeBack rd v) :=
    (s.setReg rd v).goto_withReceive valid data _
  have arith (rd : Reg) (x : Operand) (f : Int → Int → Int) :
      (s.withReceive valid data).arith rd x f = mapNext (·.withReceive valid data) (s.arith rd x f) :=
    s.withReg_withReceive valid data rd fun _ => s.withOperand_withReceive valid data x fun _ => wroteBack rd _
  have jumped (x y : Operand) (cond : Int → Bool) :
      (s.withReceive valid data).jumpIf x y cond = mapNext (·.withReceive valid data) (s.jumpIf x y cond) :=
    s.withOperand_withReceive valid data x fun _ => s.withOperand_withReceive valid data y fun _ =>
      s.goto_withReceive valid data _
  cases i with
  | snd x =>
    exact s.withOperand_withReceive valid data x fun v => (s.emit (.send v)).goto_withReceive valid data _
  | set rd x =>
    exact s.withReg_withReceive valid data rd fun _ => s.withOperand_withReceive valid data x fun _ => wroteBack rd _
  | add rd x => exact arith rd x _
  | sub rd x => exact arith rd x _
  | mul rd x => exact arith rd x _
  | mod rd x =>
    refine s.withReg_withReceive valid data rd fun _ => s.withOperand_withReceive valid data x fun v => ?_
    split
    · rfl
    · exact wroteBack rd _
  | jgz x y => exact jumped x y fun c => decide (0 < c)
  | jnz x y => exact jumped x y fun c => decide (c ≠ 0)
  | rcv rd => exact absurd rfl (hi rd)

theorem State.driverWrite_withReceive :
    (s.withReceive valid data).driverWrite = s.driverWrite.withReceive valid data := by
  have hwe : (s.withReceive valid data).portIn.regWe = s.portIn.regWe := rfl
  unfold State.driverWrite
  rw [hwe]
  split <;> rfl

variable {s} (hreq : s.portOut.rcvReq = false)
include hreq

/-- Whether a step is taken depends on the port only where a `rcv` asks for a value. -/
theorem State.stepEnabled_withReceive : (s.withReceive valid data).stepEnabled = s.stepEnabled := by
  change (!s.portIn.rst && s.active && s.portIn.go && !(s.withReceive valid data).awaitsValue) =
    (!s.portIn.rst && s.active && s.portIn.go && !s.awaitsValue)
  cases hact : s.active with
  | false => simp
  | true =>
    have hcur (rd : Reg) : s.currentInstr? ≠ some (.rcv rd) := fun hcur => State.ne_rcv_of_not_rcvReq hreq hact hcur rd rfl
    rw [State.awaitsValue_of_ne_rcv hcur, State.awaitsValue_of_ne_rcv (s := s.withReceive valid data) hcur]

theorem State.takeStep_withReceive (hact : s.active = true) :
    (s.withReceive valid data).takeStep = mapNext (·.withReceive valid data) s.takeStep := by
  have hdecoded : (s.withReceive valid data).decoded = s.decoded := rfl
  unfold State.takeStep
  rw [hdecoded]
  cases hd : s.decoded with
  | none => rfl
  | some r =>
    cases r with
    | illegal => rfl
    | badRegister => rfl
    | instr i =>
      exact exec_withReceive valid data s (State.ne_rcv_of_not_rcvReq hreq hact (State.currentInstr?_eq_some_iff.2 hd))

theorem State.coreEdge_withReceive :
    (s.withReceive valid data).coreEdge = mapNext (·.withReceive valid data) s.coreEdge := by
  have hrst : (s.withReceive valid data).portIn.rst = s.portIn.rst := rfl
  unfold State.coreEdge
  rw [hrst, State.stepEnabled_withReceive valid data hreq]
  split
  · rfl
  · split
    · next hen => exact State.takeStep_withReceive valid data hreq (State.active_eq_true_of_stepEnabled hen)
    · exact congrArg Host.Outcome.next (s.driverWrite_withReceive valid data)

end Receive

/-- Settles O47: the edge commutes with changing the receive port, whose values it then uses up. -/
theorem receivePortIgnoredUnlessRequested : Obligations.ReceivePortIgnoredUnlessRequested := by
  intro s p rest valid data hdriver hreq
  have hreplaced : { s with driver := { p with rcvValid := valid, rcvData := data } :: rest } = s.withReceive valid data := by
    simp only [State.withReceive, State.portIn, hdriver, List.headD_cons, List.tail_cons]
  calc step { s with driver := { p with rcvValid := valid, rcvData := data } :: rest }
      = mapNext State.endEdge (s.withReceive valid data).coreEdge := by rw [hreplaced]; rfl
    _ = mapNext (fun t => (t.withReceive valid data).endEdge) s.coreEdge := by
        rw [State.coreEdge_withReceive valid data hreq, mapNext_mapNext]
    _ = step s := rfl

end Sys2Proof.Machine
end

section
/-! SUPPORT. The sequencer of 43_sequencer.md: when a step is taken and what an edge without one does, the ends of a run, the run
state after an instruction, and the status and register ports, with the statements about them. -/

namespace Sys2Proof.Machine

/-! ### When a step is taken (R155) -/

section Enable
variable {s : State}

/-- The core is not held exactly when a `rcv` at the pc has its value (42_driver_handoff.md R143). -/
theorem State.awaitsValue_eq_false_iff :
    s.awaitsValue = false ↔ ((∃ rd, s.currentInstr? = some (.rcv rd)) → s.portIn.rcvValid = true) := by
  by_cases hrcv : ∃ rd, s.currentInstr? = some (.rcv rd)
  · obtain ⟨rd, hcur⟩ := hrcv
    simp [State.awaitsValue_of_rcv hcur, hcur]
  · have hne (rd : Reg) : s.currentInstr? ≠ some (.rcv rd) := fun hcur => hrcv ⟨rd, hcur⟩
    simp [State.awaitsValue_of_ne_rcv hne, hrcv]

theorem State.active_eq_true_iff : s.active = true ↔ s.run = .running ∧ s.fault = none := by
  simp [State.active]

/-- The enable is the conjunction of R155's conditions and no reset. -/
theorem State.stepEnabled_eq_true_iff :
    s.stepEnabled = true ↔ s.portIn.rst = false ∧ (s.run = .running ∧ s.fault = none) ∧ s.portIn.go = true ∧
      ((∃ rd, s.currentInstr? = some (.rcv rd)) → s.portIn.rcvValid = true) := by
  simp only [State.stepEnabled, Bool.and_eq_true, Bool.not_eq_true', State.active_eq_true_iff,
    State.awaitsValue_eq_false_iff, and_assoc]

theorem State.stepEnabled_of_not_active (h : s.active = false) : s.stepEnabled = false := by
  simp [State.stepEnabled, h]

theorem State.not_active_of_halted (h : s.run = .halted) : s.active = false := by
  simp [State.active, h]

theorem State.not_active_of_ended (h : s.isFinal = true ∨ s.isFailed = true) : s.active = false := by
  obtain hfinal | hfailed := h
  · obtain ⟨hrun, -⟩ := Bool.and_eq_true_iff.1 hfinal
    exact State.not_active_of_halted (of_decide_eq_true hrun)
  · obtain ⟨f, hf⟩ := Option.isSome_iff_exists.1 hfailed
    simp [State.active, hf]

/-! ### What an edge does (R155, R159) -/

theorem step_of_rst (h : s.portIn.rst = true) : step s = .next s.applyReset.endEdge := by
  simp [step, State.clockEdge, State.coreEdge, h, mapNext]

theorem step_of_stepEnabled (h : s.stepEnabled = true) : step s = mapNext State.endEdge s.takeStep := by
  have hrst := (State.stepEnabled_eq_true_iff.1 h).1
  simp [step, State.clockEdge, State.coreEdge, hrst, h]

theorem step_of_not_stepEnabled (hrst : s.portIn.rst = false) (h : s.stepEnabled = false) :
    step s = .next s.driverWrite.endEdge := by
  simp [step, State.clockEdge, State.coreEdge, hrst, h, mapNext]

/-- An edge without reset, step and register write uses up the port values and does nothing else. -/
theorem step_idle (hrst : s.portIn.rst = false) (hwe : s.portIn.regWe = false) (h : s.stepEnabled = false) :
    step s = .next s.endEdge := by
  rw [step_of_not_stepEnabled hrst h, State.driverWrite_of_not_we hwe]

end Enable

/-- Settles O40: R155's conditions are the step's enable, and an edge that is neither reset, step nor write is idle. -/
theorem aStepIsTakenExactlyWhenEnabled : Obligations.AStepIsTakenExactlyWhenEnabled := by
  intro s hrst
  refine ⟨fun hrun hfault hgo hvalid => ?enabled, fun hwe hfails => ?disabled⟩
  case enabled => exact step_of_stepEnabled (State.stepEnabled_eq_true_iff.2 ⟨hrst, ⟨hrun, hfault⟩, hgo, hvalid⟩)
  case disabled =>
    refine step_idle hrst hwe (Bool.eq_false_iff.2 fun hen => ?_)
    obtain ⟨-, ⟨hrun, hfault⟩, hgo, hvalid⟩ := State.stepEnabled_eq_true_iff.1 hen
    obtain hhalted | hfaulted | hnogo | ⟨hrcv, hnovalue⟩ := hfails
    · cases hrun.symm.trans hhalted
    · exact hfaulted hfault
    · cases hgo.symm.trans hnogo
    · cases (hvalid hrcv).symm.trans hnovalue

/-- The Instruction at a pc inside the Program is what the word there decodes to. -/
theorem State.currentInstr?_of_decodeWord {s : State} {i : Instr} (hpc : s.pc.toNat < s.progLen.toNat)
    (hdec : decodeWord (s.imem.readWord s.pc.toNat) = .instr i) : s.currentInstr? = some i := by
  rw [State.currentInstr?_eq_some_iff, State.decoded, State.fetch, if_pos hpc, Option.map_some, hdec]

/-- Settles O36: the fetched word decodes to the instruction at the pc, which an enabled edge executes. -/
theorem stepRunsTheDecodedInstruction : Obligations.StepRunsTheDecodedInstruction := by
  intro s i hpc hdec hrun hfault hrst hgo hvalid
  have hcur := State.currentInstr?_of_decodeWord hpc hdec
  have hen : s.stepEnabled = true := by
    refine State.stepEnabled_eq_true_iff.2 ⟨hrst, ⟨hrun, hfault⟩, hgo, fun ⟨rd, hrcv⟩ => hvalid ⟨rd, ?_⟩⟩
    exact Option.some.inj (hcur.symm.trans hrcv)
  exact congrArg (mapNext State.endEdge) (State.coreEdge_eq_exec hen hcur)

theorem State.readPort_of_not_regOk {s : State} {r : Reg} (h : regOk r = false) : s.readPort r = 0 := by
  rw [State.readPort, State.getReg?_of_not_regOk h, Option.getD_none]

/-- Settles O41: an edge without reset and step is the register write the driver asks for. -/
theorem driverWritesARegisterBetweenSteps : Obligations.DriverWritesARegisterBetweenSteps := by
  intro s hrst hwe hen
  have hwrite : s.driverWrite = s.setReg s.portIn.regSel s.portIn.regWdata := if_pos hwe
  refine ⟨_, step_of_not_stepEnabled hrst hen, ?_⟩
  rw [hwrite]
  refine ⟨fun hok => s.readPort_setReg_self hok _, fun hbad => ?_, .setReg (changed := (· = _)) rfl s _, rfl, rfl, rfl, rfl,
    fun _ => rfl, rfl, rfl⟩
  rw [s.setReg_of_not_regOk hbad, State.readPort_of_not_regOk hbad]

/-! ### The ends of a run (R153, R156) -/

section Ended
variable {s : State}

theorem State.sndValid_of_not_stepEnabled (h : s.stepEnabled = false) : s.portOut.sndValid = false := by
  change s.sndOut.isSome = false
  simp [State.sndOut, h]

theorem State.rcvReq_of_not_active (h : s.active = false) : s.portOut.rcvReq = false := by
  change s.rcvOut.isSome = false
  simp [State.rcvOut, State.activeInstr?, h]

end Ended

/-- Settles O42: a halted core takes no step, so an edge without reset is at most the driver's write. -/
theorem onlyResetLeavesHalted : Obligations.OnlyResetLeavesHalted := by
  intro s t hhalted hstep hrst
  have hact := State.not_active_of_halted hhalted
  have hen := State.stepEnabled_of_not_active hact
  rw [step_of_not_stepEnabled hrst hen] at hstep
  cases hstep
  exact ⟨s.driverWrite_run.trans hhalted, s.driverWrite_pc, s.driverWrite_fault, s.driverWrite_trace,
    fun _ => State.readPort_driverWrite, State.sndValid_of_not_stepEnabled hen, State.rcvReq_of_not_active hact⟩

/-- The state with a function applied to the coming port values. -/
def State.mapDriver (g : List PortIn → List PortIn) (s : State) : State := { s with driver := g s.driver }

/-- Under the driver contract the edges of a core that takes no more steps only use up the port values. -/
theorem RunTo.eq_mapDriver_of_not_active {k : Nat} {s t : State} (hact : s.active = false) (h : RunTo true k s t) :
    t = s.mapDriver (·.drop k) := by
  induction k generalizing s with
  | zero => exact h.symm
  | succ k ih =>
    obtain ⟨⟨hrst, hwe⟩, u, hu, hrun⟩ := h
    rw [step_idle hrst (hwe rfl) (State.stepEnabled_of_not_active hact)] at hu
    cases hu
    rw [ih (s := s.endEdge) hact hrun]
    simp only [State.mapDriver, State.endEdge, List.drop_tail]

/-- Settles O57: a run from a core that takes no more steps changes the port values only. -/
theorem anEndedRunStaysAsItIs : Obligations.AnEndedRunStaysAsItIs := by
  intro k s t hrun hended
  obtain rfl := hrun.eq_mapDriver_of_not_active (State.not_active_of_ended hended)
  exact ⟨fun _ => rfl, rfl, rfl, rfl, rfl⟩

/-! ### The run state after an instruction (R151) -/

theorem runAt_eq_halted_iff_sentinel_or_le {s : State} {n : Nat} :
    runAt s n = .halted ↔ n = Config.sentinel ∨ s.progLen.toNat ≤ n := by
  have hnot : runAt s n = .halted ↔ ¬ runAt s n = .running := by cases runAt s n <;> simp
  rw [hnot, runAt_eq_running_iff, not_and_or, not_lt, not_not, or_comm]

/-- Settles O39: an end with no fault and no hold is a `goto`, which sets the run state from the pointer it goes to. -/
theorem runStateFollowsTheNextPointer : Obligations.RunStateFollowsTheNextPointer := by
  intro i s t hexec hfault _ hvalid
  obtain ⟨-, rfl⟩ | ⟨-, rfl⟩ | ⟨⟨rd, hrcv⟩, hnovalue, -⟩ | ⟨u, n, hu, hn, rfl⟩ := exec_next_cases hexec
  · cases hfault
  · cases hfault
  · cases (hvalid rd hrcv).symm.trans hnovalue
  · have hpc : (BitVec.ofNat 64 n).toNat = n := (BitVec.toNat_ofNat n 64).trans (Nat.mod_eq_of_lt hn)
    change runAt u n = .halted ↔ _
    rw [runAt_eq_halted_iff_sentinel_or_le, hu.progLen, hpc]

/-! ### The status outputs (R158) -/

/-- The codes of the causes are 1, 2 and 3, each one cause's (60_exceptions.md R175). -/
theorem Cause.code_spec (c : Cause) :
    c.code ≠ 0 ∧ (c = .illegalInstruction ↔ c.code = 1) ∧ (c = .registerIndexOutOfRange ↔ c.code = 2) ∧
      (c = .divisionByZero ↔ c.code = 3) := by
  cases c <;> decide

theorem State.faultOut_of_none {s : State} (h : s.fault = none) : s.portOut.faultCause = 0 ∧ s.portOut.faultPc = 0 := by
  simp [State.portOut, State.faultCause, State.faultPc, h]

theorem State.faultOut_of_some {s : State} {f : FaultRecord} (h : s.fault = some f) :
    s.portOut.faultCause = f.cause.code ∧ s.portOut.faultPc = f.fpc := by
  simp [State.portOut, State.faultCause, State.faultPc, h]

/-- Settles O48: the outputs are the latch's fields, and the code tells the cause. -/
theorem statusOutputsShowTheState : Obligations.StatusOutputsShowTheState := by
  intro s
  refine ⟨decide_eq_true_iff, rfl, State.faultOut_of_none, fun f hf => ?_⟩
  obtain ⟨hcause, hpc⟩ := State.faultOut_of_some hf
  rw [hcause]
  exact ⟨hpc, f.cause.code_spec⟩

/-! ### The register port (R159) -/

/-! An instruction reads of the driver's ports the receive port only, so it commutes with changing any others. -/

section OtherPorts
variable (g : List PortIn → List PortIn) (s : State)

theorem State.goto_mapDriver (n : Nat) : (s.mapDriver g).goto n = mapNext (State.mapDriver g) (s.goto n) := by
  unfold State.goto
  split <;> rfl

theorem State.withOperand_mapDriver (x : Operand) {k k' : Word → Out}
    (hk : ∀ v, k' v = mapNext (State.mapDriver g) (k v)) :
    (s.mapDriver g).withOperand x k' = mapNext (State.mapDriver g) (s.withOperand x k) := by
  have heval : (s.mapDriver g).eval? x = s.eval? x := by cases x <;> rfl
  unfold State.withOperand
  rw [heval]
  cases s.eval? x with
  | some v => exact hk v
  | none => rfl

/-- A register is read as a register operand is. -/
theorem State.withReg_mapDriver (r : Reg) {k k' : Word → Out} (hk : ∀ v, k' v = mapNext (State.mapDriver g) (k v)) :
    (s.mapDriver g).withReg r k' = mapNext (State.mapDriver g) (s.withReg r k) :=
  s.withOperand_mapDriver g (.reg r) hk

theorem exec_mapDriver (i : Instr) (hvalid : (s.mapDriver g).portIn.rcvValid = s.portIn.rcvValid)
    (hdata : (s.mapDriver g).portIn.rcvData = s.portIn.rcvData) :
    exec i (s.mapDriver g) = mapNext (State.mapDriver g) (exec i s) := by
  have wroteBack (rd : Reg) (v : Word) :
      (s.mapDriver g).writeBack rd v = mapNext (State.mapDriver g) (s.writeBack rd v) :=
    (s.setReg rd v).goto_mapDriver g _
  have arith (rd : Reg) (x : Operand) (f : Int → Int → Int) :
      (s.mapDriver g).arith rd x f = mapNext (State.mapDriver g) (s.arith rd x f) :=
    s.withReg_mapDriver g rd fun _ => s.withOperand_mapDriver g x fun _ => wroteBack rd _
  have jumped (x y : Operand) (cond : Int → Bool) :
      (s.mapDriver g).jumpIf x y cond = mapNext (State.mapDriver g) (s.jumpIf x y cond) :=
    s.withOperand_mapDriver g x fun _ => s.withOperand_mapDriver g y fun _ => s.goto_mapDriver g _
  cases i with
  | snd x => exact s.withOperand_mapDriver g x fun v => (s.emit (.send v)).goto_mapDriver g _
  | set rd x => exact s.withReg_mapDriver g rd fun _ => s.withOperand_mapDriver g x fun _ => wroteBack rd _
  | add rd x => exact arith rd x _
  | sub rd x => exact arith rd x _
  | mul rd x => exact arith rd x _
  | mod rd x =>
    refine s.withReg_mapDriver g rd fun _ => s.withOperand_mapDriver g x fun _ => ?_
    split
    · rfl
    · exact wroteBack rd _
  | jgz x y => exact jumped x y fun c => decide (0 < c)
  | jnz x y => exact jumped x y fun c => decide (c ≠ 0)
  | rcv rd =>
    refine s.withReg_mapDriver g rd fun _ => ?_
    rw [hvalid, hdata]
    split
    · exact State.goto_mapDriver g ((s.setReg rd _).emit (.recv rd _)) _
    · rfl

theorem State.takeStep_mapDriver (hvalid : (s.mapDriver g).portIn.rcvValid = s.portIn.rcvValid)
    (hdata : (s.mapDriver g).portIn.rcvData = s.portIn.rcvData) :
    (s.mapDriver g).takeStep = mapNext (State.mapDriver g) s.takeStep := by
  have hdecoded : (s.mapDriver g).decoded = s.decoded := rfl
  unfold State.takeStep
  rw [hdecoded]
  cases s.decoded with
  | none => rfl
  | some r =>
    cases r with
    | illegal => rfl
    | badRegister => rfl
    | instr i => exact exec_mapDriver g s i hvalid hdata

end OtherPorts

/-- The coming port values with another selection and other data on the register port. -/
def selectInstead (sel : Reg) (data : Word) (d : List PortIn) : List PortIn :=
  { d.headD PortIn.freeRun with regSel := sel, regWdata := data } :: d.tail

/-- With no register write asked for, the selection and the data make no difference to the edge (42_driver_handoff.md R145). -/
theorem step_selectInstead {s : State} (hwe : s.portIn.regWe = false) (sel : Reg) (data : Word) :
    step (s.mapDriver (selectInstead sel data)) = step s := by
  have hrst' : (s.mapDriver (selectInstead sel data)).portIn.rst = s.portIn.rst := rfl
  have hen' : (s.mapDriver (selectInstead sel data)).stepEnabled = s.stepEnabled := rfl
  cases hrst : s.portIn.rst with
  | true =>
    rw [step_of_rst hrst, step_of_rst (hrst'.trans hrst)]
    rfl
  | false =>
    cases hen : s.stepEnabled with
    | false =>
      rw [step_idle hrst hwe hen, step_idle (hrst'.trans hrst) hwe (hen'.trans hen)]
      rfl
    | true =>
      rw [step_of_stepEnabled hen, step_of_stepEnabled (hen'.trans hen), State.takeStep_mapDriver _ s rfl rfl,
        mapNext_mapNext]
      rfl

theorem State.readPort_of_getReg? {s : State} {r : Reg} {v : Word} (h : s.getReg? r = some v) : s.readPort r = v := by
  rw [State.readPort, h, Option.getD_some]

/-- Settles O58: the port is the register file's read, and an edge without a write does not look at the selection. -/
theorem readPortShowsTheRegisterAndChangesNothing : Obligations.ReadPortShowsTheRegisterAndChangesNothing := by
  intro s
  refine ⟨rfl, fun v => State.readPort_of_getReg?, fun hsel => ?absent, fun p rest sel data hdriver hwe => ?unused⟩
  case absent =>
    have hbad : regOk s.portIn.regSel = false := Bool.eq_false_iff.2 fun hok => by
      have hlt := regOk_iff.1 hok
      omega
    exact State.readPort_of_not_regOk hbad
  case unused =>
    have hport : s.portIn = p := by rw [State.portIn, hdriver, List.headD_cons]
    have hreplaced : { s with driver := { p with regSel := sel, regWdata := data } :: rest } =
        s.mapDriver (selectInstead sel data) := by
      simp only [State.mapDriver, selectInstead, hdriver, List.headD_cons, List.tail_cons]
    rw [hreplaced]
    exact step_selectInstead (hport ▸ hwe) sel data

end Sys2Proof.Machine
end

section
/-! SUPPORT. The three faults of 60_exceptions.md: which instructions and which words take one, that a fault entry writes the latch
and nothing else, and that a recorded fault stays, with the statements about them. -/

namespace Sys2Proof.Machine

/-! ### The faults of an instruction (R175, R176) -/

/-- Settles O10: the divisor is read before anything is written, and 0 raises. -/
theorem modByZeroRaises : Obligations.ModByZeroRaises := by
  intro rd x s hwf hzero
  obtain ⟨hrd, hx⟩ := Bool.and_eq_true_iff.1 hwf
  exact ⟨_, exec_mod_of_eq_zero hrd hx hzero, .raise s _⟩

/-- An instruction that changes the latch names a register that does not exist or divides by zero, and does nothing else. -/
theorem exec_raises_of_fault_ne {i : Instr} {s t : State} (h : exec i s = .next t) (hne : t.fault ≠ s.fault) :
    (i.wf = false ∧ t = s.raise .registerIndexOutOfRange) ∨
      ((∃ rd x, i = .mod rd x ∧ s.eval? x = some 0) ∧ t = s.raise .divisionByZero) := by
  obtain hbad | hdiv | ⟨-, -, rfl⟩ | ⟨u, n, hu, -, rfl⟩ := exec_next_cases h
  · exact .inl hbad
  · exact .inr hdiv
  · exact absurd rfl hne
  · exact absurd hu.fault hne

/-- Settles O15: of the two ways to change the latch, a well-formed instruction has the zero divisor only. -/
theorem onlyModFaultsOnceDecoded : Obligations.OnlyModFaultsOnceDecoded := by
  intro i s t hwf hexec hne
  obtain ⟨hbad, -⟩ | ⟨⟨rd, x, hmod, hzero⟩, rfl⟩ := exec_raises_of_fault_ne hexec hne
  · cases hwf.symm.trans hbad
  · exact ⟨rd, x, hmod, State.value_of_eval? hzero, .raise s _⟩

/-! ### The faults of the decoder (R172, R173) -/

section Undecodable
variable {s : State}

/-- Inside the Program the decoder answers for the word at the pc. -/
theorem State.decoded_of_lt (hpc : s.pc.toNat < s.progLen.toNat) :
    s.decoded = some (decodeWord (s.imem.readWord s.pc.toNat)) := by
  rw [State.decoded, State.fetch, if_pos hpc, Option.map_some]

theorem State.currentInstr?_eq_none {r : DecodeResult} (hdec : s.decoded = some r) (hr : ∀ i, r ≠ .instr i) :
    s.currentInstr? = none := by
  refine Option.eq_none_iff_forall_ne_some.2 fun i hcur => hr i ?_
  exact Option.some.inj (hdec.symm.trans (State.currentInstr?_eq_some_iff.1 hcur))

theorem State.takeStep_of_illegal (hdec : s.decoded = some .illegal) :
    s.takeStep = .next (s.raise .illegalInstruction) := by
  simp only [State.takeStep, hdec]

theorem State.takeStep_of_badRegister (hdec : s.decoded = some .badRegister) :
    s.takeStep = .next (s.raise .registerIndexOutOfRange) := by
  simp only [State.takeStep, hdec]

end Undecodable

/-- Settles O37: a word that is no instruction is no `rcv`, so nothing holds the step, and the step raises. -/
theorem undecodableWordFaults : Obligations.UndecodableWordFaults := by
  intro s hpc hrun hfault hrst hgo
  have raises {c : Cause} (hcur : s.currentInstr? = none) (htake : s.takeStep = .next (s.raise c)) :
      ∃ t, step s = .next t.endEdge ∧ FaultEntered s t c := by
    have hen : s.stepEnabled = true := by
      refine State.stepEnabled_eq_true_iff.2 ⟨hrst, ⟨hrun, hfault⟩, hgo, fun ⟨rd, hrcv⟩ => ?_⟩
      cases hcur.symm.trans hrcv
    exact ⟨_, (step_of_stepEnabled hen).trans (congrArg (mapNext State.endEdge) htake), .raise s c⟩
  refine ⟨fun hill => ?illegal, fun hbad => ?badRegister⟩
  case illegal =>
    have hdec : s.decoded = some .illegal := hill ▸ State.decoded_of_lt hpc
    exact raises (State.currentInstr?_eq_none hdec nofun) (State.takeStep_of_illegal hdec)
  case badRegister =>
    have hdec : s.decoded = some .badRegister := hbad ▸ State.decoded_of_lt hpc
    exact raises (State.currentInstr?_eq_none hdec nofun) (State.takeStep_of_badRegister hdec)

/-! ### Fault entry and the recorded fault (R174, R178, R187) -/

/-- What the edge does to the core when it records a fault is a fault entry, whoever raises it. -/
theorem State.coreEdge_raises_of_fault {s u : State} (h : s.coreEdge = .next u) (hnone : s.fault = none)
    (hfault : u.fault ≠ none) : ∃ c, u = s.raise c := by
  obtain ⟨-, he⟩ | ⟨-, -, he⟩ | ⟨-, ⟨-, he⟩ | ⟨c, he⟩ | ⟨i, -, he⟩⟩ := s.coreEdge_cases <;> rw [he] at h
  · cases h
    exact absurd s.applyReset_fault hfault
  · cases h
    exact absurd (s.driverWrite_fault.trans hnone) hfault
  · cases h
  · cases h
    exact ⟨c, rfl⟩
  · obtain ⟨-, rfl⟩ | ⟨-, rfl⟩ := exec_raises_of_fault_ne h (hnone ▸ hfault)
    · exact ⟨_, rfl⟩
    · exact ⟨_, rfl⟩

/-- Settles O44: the edge is a fault entry, and using up the ports touches the driver only. -/
theorem faultsArePrecise : Obligations.FaultsArePrecise := by
  intro s t hstep hnone hfault
  obtain ⟨u, hu, rfl⟩ := mapNext_eq_next_iff.1 hstep
  obtain ⟨c, rfl⟩ := State.coreEdge_raises_of_fault hu hnone hfault
  exact ⟨⟨c, rfl⟩, rfl, rfl, rfl, fun _ => rfl⟩

/-- Settles O43: a faulted core takes no step, so an edge without reset is at most the driver's write. -/
theorem onlyResetClearsAFault : Obligations.OnlyResetClearsAFault := by
  intro s t f hf hstep hrst
  have hfailed : s.isFailed = true := Option.isSome_iff_exists.2 ⟨f, hf⟩
  have hen := State.stepEnabled_of_not_active (State.not_active_of_ended (.inr hfailed))
  rw [step_of_not_stepEnabled hrst hen] at hstep
  cases hstep
  exact ⟨s.driverWrite_fault.trans hf, s.driverWrite_pc, s.driverWrite_run, s.driverWrite_trace,
    fun _ => State.readPort_driverWrite⟩

end Sys2Proof.Machine
end

section
/-! SUPPORT. Reset, launch and the driver contract of 70_reset_and_hazards.md: the values a reset edge leaves, what launching an
assembled Program gives, and who writes a register in mid-run, with the statements about them. -/

namespace Sys2Proof.Machine

/-! ### Reset (R200) -/

/-- Reset starts the core exactly when the Program is not empty (10_state.md R35). -/
theorem State.applyReset_run_eq_running_iff {s : State} : s.applyReset.run = .running ↔ 0 < s.progLen.toNat := by
  have hempty : s.progLen = 0 ↔ s.progLen.toNat = 0 := BitVec.toNat_inj.symm
  rw [State.applyReset_run, Nat.pos_iff_ne_zero, ne_eq, ← hempty]
  split
  · next h0 => exact iff_of_false nofun (not_not_intro h0)
  · next h0 => exact iff_of_true rfl h0

theorem State.applyReset_run_eq_halted_iff {s : State} : s.applyReset.run = .halted ↔ s.progLen.toNat = 0 := by
  have hother : s.applyReset.run = .halted ↔ ¬ s.applyReset.run = .running := by cases s.applyReset.run <;> decide
  rw [hother, State.applyReset_run_eq_running_iff, Nat.pos_iff_ne_zero, not_not]

/-- Settles O1: a reset edge is the reset, whatever the other ports ask, and using up the ports touches the driver only. -/
theorem resetEdgeGivesResetValues : Obligations.ResetEdgeGivesResetValues := fun s hrst =>
  ⟨_, step_of_rst hrst, s.readPort_applyReset, rfl, rfl, State.applyReset_run_eq_running_iff.2,
    State.applyReset_run_eq_halted_iff.2⟩

/-! ### Launch (R201) -/

/-- Reset overwrites the pc, the run state and the latch, so it gives the invariant from a Program alone, as it does from a core
that has halted at the end of that Program. -/
theorem State.inv_applyReset {s : State} (hlen : s.progLen.toNat ≤ Config.maxLen) (himage : s.imem.wf) :
    s.applyReset.Inv := by
  have hended : State.Inv { s with pc := s.progLen, run := .halted, fault := none } :=
    { lenOk := hlen, imageOk := himage, running := nofun, halted := fun _ => Nat.le_refl _, faulted := nofun,
      sentinel := fun _ => rfl }
  exact hended.applyReset

section Load
variable {ws : List InstrWord}

/-- A length within `MAXLEN` fits `prog_len`. -/
theorem State.toNat_progLen_load (s : State) (hlen : ws.length ≤ Config.maxLen) :
    (s.load ws).progLen.toNat = ws.length := by
  have hfits : Config.maxLen < 2 ^ 64 := by decide
  exact (BitVec.toNat_ofNat _ _).trans (Nat.mod_eq_of_lt (hlen.trans_lt hfits))

/-- Word `k` of a loaded Program lies at address `k` (20_memory.md R40). -/
theorem State.readWord_load (s : State) {k : Nat} {w : InstrWord} (hk : ws[k]? = some w) :
    (s.load ws).imem.readWord k = w := by
  obtain ⟨hlt, -⟩ := List.getElem?_eq_some_iff.1 hk
  have hin : 0 ≤ k ∧ k < 0 + ws.length := by omega
  change (Memory.writeWords [] 0 ws).readWord k = w
  rw [Memory.readWord_writeWords Memory.wf_nil, if_pos hin, Nat.sub_zero, hk, Option.getD_some]

end Load

section Assembled
variable {prog : List Instr}

theorem length_assemble : (assemble prog).length = prog.length := List.length_map _

/-- The image of a Program is launched when its instructions are well-formed: every word decodes (30_encoding.md R81). -/
theorem launchPremise_assemble (hwf : ∀ i ∈ prog, i.wf = true) (hlen : prog.length ≤ Config.maxLen) :
    launchPremise (assemble prog) = true := by
  have hdecodes : ∀ i ∈ prog, decodeWord (encodeWord i) = .instr i := fun i hi => encodeAndDecodeAreInverse.1 i (hwf i hi)
  simp +contextual [launchPremise, assemble, hlen, hdecodes]

/-- Word `k` of the image decodes to instruction `k` (30_encoding.md R81). -/
theorem decodeWord_readWord_load_assemble (s : State) (hwf : ∀ i ∈ prog, i.wf = true) {k : Nat} {i : Instr}
    (hk : prog[k]? = some i) : decodeWord ((s.load (assemble prog)).imem.readWord k) = .instr i := by
  have hword : (assemble prog)[k]? = some (encodeWord i) := by rw [assemble, List.getElem?_map, hk, Option.map_some]
  rw [s.readWord_load hword]
  exact encodeAndDecodeAreInverse.1 i (hwf i (List.mem_of_getElem? hk))

end Assembled

/-- Settles O35: launch loads the image, whose words read back and decode, and resets with its length on `prog_len`. -/
theorem launchLaysTheProgramOut : Obligations.LaunchLaysTheProgramOut := by
  intro prog driver hwf hlen
  have hwords : (assemble prog).length ≤ Config.maxLen := length_assemble.trans_le hlen
  have hprogLen : (State.reset.load (assemble prog)).progLen.toNat = prog.length :=
    (State.reset.toNat_progLen_load hwords).trans length_assemble
  have hinv : (State.reset.load (assemble prog)).applyReset.Inv :=
    State.inv_applyReset (hprogLen.trans_le hlen) (Memory.wf_writeWords Memory.wf_nil 0 _)
  refine ⟨_, if_pos (launchPremise_assemble hwf hlen), { hinv with }, hprogLen, rfl,
    (State.reset.load (assemble prog)).readPort_applyReset, rfl, rfl, rfl, ?running,
    fun k i hk => decodeWord_readWord_load_assemble State.reset hwf hk⟩
  case running =>
    refine State.applyReset_run_eq_running_iff.trans ?_
    rw [hprogLen, List.length_pos_iff]

/-! ### Register writes under the driver contract (R204; 42_driver_handoff.md R145) -/

/-- Without reset and register write, a register the edge changes is the destination of the instruction a step executes. -/
theorem State.coreEdge_writes_dest {s u : State} {r : Reg} (hrst : s.portIn.rst = false) (hwe : s.portIn.regWe = false)
    (h : s.coreEdge = .next u) (hne : u.readPort r ≠ s.readPort r) :
    s.stepEnabled = true ∧ ∃ i, s.currentInstr? = some i ∧ Instr.dest? i = some r := by
  obtain ⟨hreset, -⟩ | ⟨-, -, he⟩ | ⟨hen, ⟨-, he⟩ | ⟨c, he⟩ | ⟨i, hdec, he⟩⟩ := s.coreEdge_cases
  · cases hrst.symm.trans hreset
  · cases he.symm.trans h
    exact absurd (congrArg (·.readPort r) (State.driverWrite_of_not_we hwe)) hne
  · cases he.symm.trans h
  · cases he.symm.trans h
    exact absurd (s.readPort_raise c r) hne
  · exact ⟨hen, i, State.currentInstr?_eq_some_iff.2 hdec, onlyTheDestinationRegisterChanges i s u r (he.symm.trans h) hne⟩

/-- Settles O56: the contract shuts out reset and the driver's write, and using up the ports touches no register. -/
theorem onlyInstructionsWriteRegistersInMidRun : Obligations.OnlyInstructionsWriteRegistersInMidRun := by
  intro s t r ⟨hrst, hwe⟩ hstep hne
  obtain ⟨u, hu, rfl⟩ := mapNext_eq_next_iff.1 hstep
  exact State.coreEdge_writes_dest hrst (hwe rfl) hu hne

end Sys2Proof.Machine
end

section
/-! SUPPORT. Encoding a text as UTF-8 is inverse to decoding it (30_encoding.md R70, log 14), with the statement about stored
texts. -/

namespace Sys2Proof.Machine

/-! ### What the kind of a byte says about the byte -/

section ByteKind
variable {b : Byte} {more least bits : Nat}

theorem toNat_lt_of_single (h : utf8Byte b = .single) : b.toNat < 0x80 := by
  simp only [utf8Byte] at h
  grind

theorem toNat_of_continuation (h : utf8Byte b = .continuation bits) : b.toNat = 0x80 + bits ∧ bits < 64 := by
  simp only [utf8Byte] at h
  grind

/-- A lead byte announces one, two or three bytes to come. -/
theorem toNat_of_lead (h : utf8Byte b = .lead more least bits) :
    (more = 1 ∧ least = 0x80 ∧ b.toNat = 0xC0 + bits ∧ bits < 0x20) ∨
    (more = 2 ∧ least = 0x800 ∧ b.toNat = 0xE0 + bits ∧ bits < 0x10) ∨
    (more = 3 ∧ least = 0x10000 ∧ b.toNat = 0xF0 + bits ∧ bits < 8) := by
  simp only [utf8Byte] at h
  split at h
  · cases h
  split at h
  · cases h
  split at h
  · cases h
    exact .inl ⟨rfl, rfl, by omega⟩
  split at h
  · cases h
    exact .inr (.inl ⟨rfl, rfl, by omega⟩)
  split at h
  · cases h
    exact .inr (.inr ⟨rfl, rfl, by omega⟩)
  · cases h

end ByteKind

/-! ### The characters the decoder makes -/

theorem toNat_ofNat_of_isScalar {n : Nat} (h : isScalar n = true) : (Char.ofNat n).toNat = n := by
  have hvalid : n.isValidChar := by simpa [isScalar, Nat.isValidChar] using h
  rw [Char.toNat_ofNat, if_pos hvalid]

/-- The last `k` bytes of a character that has more than one. -/
def continuationBytes (n : Nat) : Nat → List Byte
  | 0 => []
  | k + 1 => continuationByte n k :: continuationBytes n k

/-- A continuation byte is the one of any number that has its bits at its place. -/
theorem eq_continuationByte {b : Byte} {bits n k : Nat} (hb : utf8Byte b = .continuation bits) (hn : n / 64 ^ k % 64 = bits) :
    b = continuationByte n k := by
  rw [continuationByte, hn, ← (toNat_of_continuation hb).1, BitVec.ofNat_toNat, BitVec.setWidth_eq]

theorem encodeUtf8Char_of_single {b : Byte} (hb : utf8Byte b = .single) : encodeUtf8Char (Char.ofNat b.toNat) = [b] := by
  have hlt := toNat_lt_of_single hb
  have hn : (Char.ofNat b.toNat).toNat = b.toNat := toNat_ofNat_of_isScalar (by simp [isScalar]; omega)
  simp [encodeUtf8Char, hn, hlt]

/-- A character that starts with the bits of a lead byte, and has no shorter form, is spelled by that byte and the announced
number of continuation bytes. -/
theorem encodeUtf8Char_of_lead {b : Byte} {more least : Nat} {c : Char}
    (hb : utf8Byte b = .lead more least (c.toNat / 64 ^ more)) (hleast : least ≤ c.toNat) :
    encodeUtf8Char c = b :: continuationBytes c.toNat more := by
  have hbyte : BitVec.ofNat 8 b.toNat = b := by rw [BitVec.ofNat_toNat, BitVec.setWidth_eq]
  obtain ⟨rfl, rfl, hn, hbits⟩ | ⟨rfl, rfl, hn, hbits⟩ | ⟨rfl, rfl, hn, hbits⟩ := toNat_of_lead hb
  · rw [encodeUtf8Char, if_neg (by omega), if_pos (by omega), ← hbyte, hn]
    rfl
  · rw [encodeUtf8Char, if_neg (by omega), if_neg (by omega), if_pos (by omega), ← hbyte, hn]
    rfl
  · rw [encodeUtf8Char, if_neg (by omega), if_neg (by omega), if_neg (by omega), ← hbyte, hn]
    rfl

theorem encodeUtf8_cons (c : Char) (t : Text) : encodeUtf8 (c :: t) = encodeUtf8Char c ++ encodeUtf8 t := List.flatMap_cons

/-! ### What the decoder accepts -/

/-- Everything the decoder can do with a byte, when it answers a text: a character of one byte, the first, the last or an inner
byte of a longer one. -/
theorem decodeUtf8From_cons_cases {more least acc : Nat} {b : Byte} {bs : List Byte} {t : Text}
    (h : decodeUtf8From more least acc (b :: bs) = some t) :
    (more = 0 ∧ utf8Byte b = .single ∧ ∃ t', decodeUtf8From 0 0 0 bs = some t' ∧ t = Char.ofNat b.toNat :: t') ∨
    (more = 0 ∧ ∃ m l n, utf8Byte b = .lead m l n ∧ decodeUtf8From m l n bs = some t) ∨
    (∃ bits, utf8Byte b = .continuation bits ∧
      ((more = 1 ∧ least ≤ acc * 64 + bits ∧ isScalar (acc * 64 + bits) = true ∧
          ∃ t', decodeUtf8From 0 0 0 bs = some t' ∧ t = Char.ofNat (acc * 64 + bits) :: t') ∨
        ∃ k, more = k + 2 ∧ decodeUtf8From (k + 1) least (acc * 64 + bits) bs = some t)) := by
  rw [decodeUtf8From] at h
  cases hb : utf8Byte b with
  | single =>
    simp only [hb, Option.ite_none_right_eq_some, Option.map_eq_some_iff] at h
    obtain ⟨hmore, t', ht', rfl⟩ := h
    exact .inl ⟨hmore, rfl, t', ht', rfl⟩
  | lead m l n =>
    simp only [hb, Option.ite_none_right_eq_some] at h
    exact .inr (.inl ⟨h.1, m, l, n, rfl, h.2⟩)
  | continuation bits =>
    refine .inr (.inr ⟨bits, rfl, ?_⟩)
    simp only [hb] at h
    match more with
    | 0 => simp at h
    | 1 =>
      simp only [Nat.one_ne_zero, if_false, if_true, Option.ite_none_right_eq_some, Option.map_eq_some_iff] at h
      obtain ⟨⟨hleast, hscalar⟩, t', ht', rfl⟩ := h
      exact .inl ⟨rfl, hleast, hscalar, t', ht', rfl⟩
    | k + 2 => exact .inr ⟨k, rfl, by simpa using h⟩
  | never => simp [hb] at h

/-- The bytes complete the text for a decoder in the given state: between characters they are its UTF-8; with bytes to come they
are the last bytes of its first character, whose number starts with `acc` and is at least `least`, and the UTF-8 of the rest. -/
def Completes (more least acc : Nat) (bs : List Byte) (t : Text) : Prop :=
  match more with
  | 0 => bs = encodeUtf8 t
  | k + 1 => ∃ c t', t = c :: t' ∧ c.toNat / 64 ^ (k + 1) = acc ∧ least ≤ c.toNat ∧
      bs = continuationBytes c.toNat (k + 1) ++ encodeUtf8 t'

section Completes
variable {least acc bits : Nat} {b : Byte} {bs : List Byte} {t : Text}

@[simp] theorem completes_zero : Completes 0 least acc bs t ↔ bs = encodeUtf8 t := Iff.rfl

theorem Completes.single (hb : utf8Byte b = .single) (h : Completes 0 0 0 bs t) :
    Completes 0 least acc (b :: bs) (Char.ofNat b.toNat :: t) := by
  rw [completes_zero] at h ⊢
  rw [encodeUtf8_cons, encodeUtf8Char_of_single hb, List.singleton_append, h]

theorem Completes.lead {more least' : Nat} (hb : utf8Byte b = .lead more least' bits) (h : Completes more least' bits bs t) :
    Completes 0 least acc (b :: bs) t := by
  obtain ⟨k, rfl⟩ : ∃ k, more = k + 1 := Nat.exists_eq_succ_of_ne_zero (by have := toNat_of_lead hb; omega)
  obtain ⟨c, t', rfl, rfl, hleast, rfl⟩ := h
  rw [completes_zero, encodeUtf8_cons, encodeUtf8Char_of_lead hb hleast, List.cons_append]

theorem Completes.last (hb : utf8Byte b = .continuation bits) (hleast : least ≤ acc * 64 + bits)
    (hscalar : isScalar (acc * 64 + bits) = true) (h : Completes 0 0 0 bs t) :
    Completes 1 least acc (b :: bs) (Char.ofNat (acc * 64 + bits) :: t) := by
  have hbits := (toNat_of_continuation hb).2
  have hn := toNat_ofNat_of_isScalar hscalar
  refine ⟨_, t, rfl, ?_, hleast.trans_eq hn.symm, ?_⟩
  · rw [hn, Nat.zero_add, Nat.pow_one]
    omega
  · rw [hn, eq_continuationByte (n := acc * 64 + bits) (k := 0) hb (by omega), completes_zero.1 h]
    rfl

theorem Completes.inner {k : Nat} (hb : utf8Byte b = .continuation bits)
    (h : Completes (k + 1) least (acc * 64 + bits) bs t) : Completes (k + 2) least acc (b :: bs) t := by
  have hbits := (toNat_of_continuation hb).2
  obtain ⟨c, t', rfl, hacc, hleast, rfl⟩ := h
  refine ⟨c, t', rfl, ?_, hleast, ?_⟩
  · rw [Nat.pow_succ, ← Nat.div_div_eq_div_mul, hacc]
    omega
  · rw [eq_continuationByte (n := c.toNat) (k := k + 1) hb (by omega)]
    rfl

end Completes

/-- What the decoder accepts completes the text it answers. -/
theorem completes_of_decodeUtf8From {more least acc : Nat} {bs : List Byte} {t : Text}
    (h : decodeUtf8From more least acc bs = some t) : Completes more least acc bs t := by
  induction bs generalizing more least acc t with
  | nil =>
    obtain ⟨rfl, ht⟩ := Option.ite_none_right_eq_some.1 h
    cases ht
    rfl
  | cons b bs ih =>
    obtain ⟨rfl, hb, t', ht', rfl⟩ | ⟨rfl, m, l, n, hb, ht⟩ |
      ⟨bits, hb, ⟨rfl, hleast, hscalar, t', ht', rfl⟩ | ⟨k, rfl, ht⟩⟩ := decodeUtf8From_cons_cases h
    · exact .single hb (ih ht')
    · exact .lead hb (ih ht)
    · exact .last hb hleast hscalar (ih ht')
    · exact .inner hb (ih ht)

/-- Encoding is inverse to decoding: a text has one UTF-8 form. -/
theorem decodeUtf8_eq_some_iff {bs : List Byte} {t : Text} : decodeUtf8 bs = some t ↔ bs = encodeUtf8 t :=
  ⟨completes_of_decodeUtf8From, fun h => h ▸ decodeUtf8_encodeUtf8 t⟩

/-! ### Loading a stored text (R70) -/

theorem loadBytes_encodeUtf8 (t : Text) : loadBytes (encodeUtf8 t) = loadText t := by
  rw [loadBytes, decodeUtf8_encodeUtf8]

theorem loadBytes_of_decodeUtf8_eq_none {bs : List Byte} (h : decodeUtf8 bs = none) :
    loadBytes bs = .error .malformedUtf8 := by
  rw [loadBytes, h]

/-- Settles O55: bytes that do not fail as such decode to a text, of which they are the one UTF-8 form. -/
theorem storedTextLoadsAsItsCharacters : Obligations.StoredTextLoadsAsItsCharacters := by
  refine ⟨loadBytes_encodeUtf8, fun bs hload => ?_⟩
  obtain ⟨t, ht⟩ := Option.ne_none_iff_exists'.1 (mt loadBytes_of_decodeUtf8_eq_none hload)
  obtain rfl := decodeUtf8_eq_some_iff.1 ht
  exact ⟨t, rfl, loadBytes_encodeUtf8 t⟩

end Sys2Proof.Machine
end

section
/-! SUPPORT. The stops and the choices of the model, with the statements about them: the state after reset (log 6), the ill-formed
term (log 9), the forward sum that does not fit (log 10), the fetch outside the Program (log 11), and the placing of a word
(log 7). -/

namespace Sys2Proof.Machine

/-! ### The state after reset (10_state.md R35) -/

/-- Settles O2: `State.reset` holds what a reset leaves, and its empty image is canonical. -/
theorem resetStateHoldsResetValues : Obligations.ResetStateHoldsResetValues :=
  ⟨State.reset.readPort_applyReset, rfl, rfl, rfl, rfl, invariantHoldsAtReset.imageOk⟩

/-! ### The ill-formed term (60_exceptions.md R170) -/

section IllFormed
variable {s : State} {k : Word → Out}

/-- Reading an operand ends in the raise when going on with an existing one does. -/
theorem State.withOperand_raises {x : Operand}
    (hk : x.wf = true → ∀ v, k v = .next (s.raise .registerIndexOutOfRange)) :
    s.withOperand x k = .next (s.raise .registerIndexOutOfRange) := by
  cases hx : x.wf with
  | false => simp only [State.withOperand, s.eval?_of_not_wf hx]
  | true => rw [State.withOperand_of_some (s.eval?_eq_value hx), hk hx]

/-- Reading a register ends in the raise when going on with an existing one does. -/
theorem State.withReg_raises {r : Reg}
    (hk : regOk r = true → ∀ d, k d = .next (s.raise .registerIndexOutOfRange)) :
    s.withReg r k = .next (s.raise .registerIndexOutOfRange) := by
  cases hr : regOk r with
  | false => simp only [State.withReg, State.getReg?_of_not_regOk hr]
  | true => rw [State.withReg_of_regOk hr, hk hr]

/-- The frame of the kinds with a destination and an operand raises when one of the two does not exist. -/
theorem State.withReg_withOperand_of_not_wf {rd : Reg} {x : Operand} (hwf : (regOk rd && x.wf) = false)
    (k : Word → Word → Out) :
    s.withReg rd (fun d => s.withOperand x (k d)) = .next (s.raise .registerIndexOutOfRange) :=
  State.withReg_raises fun hrd _ => State.withOperand_raises fun hx => by simp [hrd, hx] at hwf

/-- The frame of the jumps raises when one of the operands does not exist. -/
theorem State.withOperand_withOperand_of_not_wf {x y : Operand} (hwf : (x.wf && y.wf) = false)
    (k : Word → Word → Out) :
    s.withOperand x (fun c => s.withOperand y (k c)) = .next (s.raise .registerIndexOutOfRange) :=
  State.withOperand_raises fun hx _ => State.withOperand_raises fun hy => by simp [hx, hy] at hwf

end IllFormed

/-- Every register an instruction names is read before anything is written, so a missing one raises. -/
theorem exec_of_not_wf {i : Instr} (s : State) (hwf : i.wf = false) :
    exec i s = .next (s.raise .registerIndexOutOfRange) := by
  cases i with
  | snd x => exact State.withOperand_raises fun hx => absurd (hx.symm.trans hwf) nofun
  | set rd x => exact State.withReg_withOperand_of_not_wf hwf _
  | add rd x => exact State.withReg_withOperand_of_not_wf hwf _
  | sub rd x => exact State.withReg_withOperand_of_not_wf hwf _
  | mul rd x => exact State.withReg_withOperand_of_not_wf hwf _
  | mod rd x => exact State.withReg_withOperand_of_not_wf hwf _
  | jgz x y => exact State.withOperand_withOperand_of_not_wf hwf _
  | jnz x y => exact State.withOperand_withOperand_of_not_wf hwf _
  | rcv rd => exact State.withReg_raises fun hrd => absurd (hrd.symm.trans hwf) nofun

/-- Settles O38: an ill-formed term raises, and a raise is a fault entry. -/
theorem illFormedInstructionFaults : Obligations.IllFormedInstructionFaults :=
  fun _ s hwf => ⟨_, exec_of_not_wf s hwf, .raise s _⟩

/-! ### The forward sum that does not fit (93_implementation_defined.md U5) -/

/-- Settles O22: a sum of at least `2^64` takes a positive displacement, and `goto` refuses it. -/
theorem forwardOverflowIsRefused : Obligations.ForwardOverflowIsRefused := by
  intro x y s hwf hx hsum
  have hpc := s.pc.isLt
  have hforward : applyDisp s.pc.toNat (s.value y).toInt = s.pc.toNat + (s.value y).toInt.toNat :=
    applyDisp_of_nonneg _ (by omega)
  have hrefused := s.goto_of_not_lt (n := applyDisp s.pc.toNat (s.value y).toInt) (by omega)
  exact ⟨(exec_jgz_of_pos hwf hx).trans hrefused, (exec_jnz_of_ne_zero hwf hx.ne').trans hrefused⟩

/-! ### The fetch outside the Program (20_memory.md R40) -/

/-- Nothing stands at or above the length, so the decoder has no answer there. -/
theorem State.decoded_of_le {s : State} (hpc : s.progLen.toNat ≤ s.pc.toNat) : s.decoded = none := by
  rw [State.decoded, State.fetch, if_neg hpc.not_gt, Option.map_none]

/-- Settles O50: where nothing stands there is no `rcv` to hold the step, and the enabled step has nothing to decode. -/
theorem fetchOutsideTheProgramStops : Obligations.FetchOutsideTheProgramStops := by
  intro s hpc hrun hfault hrst hgo
  have hdec := State.decoded_of_le hpc
  have hen : s.stepEnabled = true := by
    refine State.stepEnabled_eq_true_iff.2 ⟨hrst, ⟨hrun, hfault⟩, hgo, fun ⟨rd, hrcv⟩ => ?_⟩
    cases hdec.symm.trans (State.currentInstr?_eq_some_iff.1 hrcv)
  have htake : s.takeStep = .fault .fetchOutsideProgram := by simp only [State.takeStep, hdec]
  exact (step_of_stepEnabled hen).trans (congrArg (mapNext State.endEdge) htake)

/-! ### The placing of a word (log 7) -/

/-- Decoding a table word from its stored bytes is decoding the word. -/
theorem decodeTableWord_eq_some_iff {nbits w : Nat} {i : Instr} :
    decodeTableWord nbits w = some i ↔ decodeWord (tableWord nbits w) = .instr i := by
  have hbytes := decodeBytes_bytesOfWord_append (tableWord nbits w) []
  rw [List.append_nil] at hbytes
  rw [decodeTableWord, hbytes]
  cases decodeWord (tableWord nbits w) <;> simp

section Placed
variable (s : State) (w : InstrWord)

theorem State.placeAddr_lt : s.placeAddr < Config.maxLen := by
  unfold State.placeAddr
  split
  · assumption
  · decide

@[simp] theorem State.toNat_placeWord_pc : (s.placeWord w).pc.toNat = s.placeAddr := by
  have haddr : s.placeAddr < 2 ^ 64 := s.placeAddr_lt.trans (by decide)
  exact (BitVec.toNat_ofNat _ 64).trans (Nat.mod_eq_of_lt haddr)

@[simp] theorem State.placeWord_progLen :
    (s.placeWord w).progLen =
      if s.placeAddr < s.progLen.toNat then s.progLen else BitVec.ofNat 64 (s.placeAddr + 1) := rfl

/-- The placed word lies inside the Program, whose length is raised where it has to be. -/
theorem State.placeWord_pc_lt_progLen : (s.placeWord w).pc.toNat < (s.placeWord w).progLen.toNat := by
  have haddr : s.placeAddr + 1 < 2 ^ 64 := (Nat.succ_lt_succ s.placeAddr_lt).trans (by decide)
  rw [State.toNat_placeWord_pc, State.placeWord_progLen]
  split
  · assumption
  · rw [BitVec.toNat_ofNat, Nat.mod_eq_of_lt haddr]
    exact Nat.lt_succ_self _

/-- The fetch of the placed state reads the placed word. -/
theorem State.readWord_placeWord (hwf : s.imem.wf) : (s.placeWord w).imem.readWord (s.placeWord w).pc.toNat = w := by
  rw [State.toNat_placeWord_pc]
  exact Memory.readWord_writeWord_self hwf s.placeAddr w

end Placed

/-- Settles O54: the placed state meets the conditions of an enabled step, and its pc is an address of a Program, from which every
instruction answers a next state. -/
theorem placedWordIsTheNextToRun : Obligations.PlacedWordIsTheNextToRun := by
  intro s w i hwf htable
  have hdec : decodeWord ((s.withFetchWord 136 w).imem.readWord (s.withFetchWord 136 w).pc.toNat) = .instr i :=
    (congrArg decodeWord (s.readWord_placeWord _ hwf)).trans (decodeTableWord_eq_some_iff.1 htable)
  have hstep : step (s.withFetchWord 136 w) = mapNext State.endEdge (exec i (s.withFetchWord 136 w)) :=
    stepRunsTheDecodedInstruction _ i (s.placeWord_pc_lt_progLen _) hdec rfl rfl rfl rfl fun _ => rfl
  have haddr : (s.withFetchWord 136 w).pc.toNat < Config.maxLen := (s.toNat_placeWord_pc _).trans_lt s.placeAddr_lt
  obtain ⟨t, ht⟩ := exec_answers_next i haddr
  exact ⟨hstep, t.endEdge, hstep.trans (congrArg (mapNext State.endEdge) ht)⟩

end Sys2Proof.Machine
end
